-- ==== Sys2Proof/Word.lean ====
section
/-! DEFINITION. The widths of the values the block moves (00_scope.md rule R10; 10_state.md). All are unsigned (rule R11). -/

namespace Sys2Proof

/-- One byte of either stream (`BYTE_W` = 8). -/
abbrev Byte := BitVec 8

/-- One host register, or a command word (`REG_W` = 32). -/
abbrev Word := BitVec 32

/-- One node word of the tree memory (`NODE_W` = 19). -/
abbrev NodeWord := BitVec 19

/-- The index of a node word (`IDX_W` = 9). -/
abbrev NodeIdx := BitVec 9

/-- One symbol of the alphabet (`SYM_W` = 8). -/
abbrev Sym := BitVec 8

/-- The length of a code, 0 to 255 (`LEN_W` = 8). -/
abbrev CodeLen := BitVec 8

/-- The integer value of a code (`CODE_W` = 255). -/
abbrev CodeVal := BitVec 255

end Sys2Proof
end

