-- ==== Sys2Proof/Syntax.lean ====
section
/-! DEFINITION. The operations of the block: one constructor of `Instr` per row of spec/opcode_table.json (30_encoding.md rules R101 and R104, 40_host_access.md rule R130). -/

namespace Sys2Proof

/-- The host registers of 10_state.md rule R30, by name. -/
inductive Reg where
  | cmd | status | irqen | root | nsym | cnt | tmAddr | tmData | lutSym | lutLen
  /-- LUT_BITSk, number 10 + k. -/
  | lutBits (k : BitVec 3)
  /-- A reserved number (rule R42); well formed for 18 to 31. -/
  | reserved (n : BitVec 5)
  deriving DecidableEq, Repr

/-- The six commands of 30_encoding.md rule R101. -/
inductive Command where
  | nop | gen | pack | unpack | clr | srst
  deriving DecidableEq, Repr

/-- The operations of the block (00_scope.md rule R19). -/
inductive Instr where
  /-- CMD word 0 (R162). -/
  | nop
  /-- CMD word 1: fill the code table from the tree (R181). -/
  | gen
  /-- CMD word 2: pack NSYM symbols (R201). -/
  | pack
  /-- CMD word 3: unpack NSYM symbols (R221). -/
  | unpack
  /-- CMD word 4: clear DONE and ERR (R163). -/
  | clr
  /-- CMD word 5: soft reset (R161). -/
  | srst
  /-- REGRD: the host reads a register (R130, R132). -/
  | regrd (r : Reg)
  /-- REGWR: the host writes a register (R130, R131). -/
  | regwr (r : Reg) (v : Word)
  /-- A Leaf node word the engine stands on: bits 17:8 (ignored, R105) and the symbol. -/
  | nodeLeaf (x : BitVec 10) (sym : Sym)
  /-- An Internal node word the engine stands on: the two child indices (R106). -/
  | nodeInternal (low high : NodeIdx)
  deriving DecidableEq, Repr

/-- The instruction a command word stands for. -/
def Instr.ofCommand : Command → Instr
  | .nop => .nop
  | .gen => .gen
  | .pack => .pack
  | .unpack => .unpack
  | .clr => .clr
  | .srst => .srst

/-- The encoded forms of spec/opcode_table.json. -/
inductive InstrWord where
  /-- Format CMD: the 32 data bits of a write to register 0. -/
  | cmd (w : Word)
  /-- Format REGPORT: the tuple (reg_we, reg_idx), `reg_we` in bit 5, and `reg_wdata`. -/
  | port (tuple : BitVec 6) (wdata : Word)
  /-- Format NODE19: one node word of TM. -/
  | node (w : NodeWord)
  deriving DecidableEq, Repr

/-- The three formats of spec/opcode_table.json. -/
inductive Format where
  | cmd | regport | node19
  deriving DecidableEq, Repr

/-- The format a word is written in. -/
def InstrWord.format : InstrWord → Format
  | .cmd _ => .cmd
  | .port _ _ => .regport
  | .node _ => .node19

/-- The format spec/opcode_table.json gives the row of an instruction. -/
def Instr.format : Instr → Format
  | .nop | .gen | .pack | .unpack | .clr | .srst => .cmd
  | .regrd _ | .regwr _ _ => .regport
  | .nodeLeaf _ _ | .nodeInternal _ _ => .node19

end Sys2Proof
end

