-- ==== Sys2Proof/WellFormed.lean ====
section
/-! DEFINITION. Which terms of `Instr` stand for an operation of the block. The widths of the operands are in their types; the one check left is that a register called reserved has a reserved number (10_state.md rule R42). -/

namespace Sys2Proof

/-- A register name is well formed when `reserved` carries a number of 18 to 31 (rule R42). -/
def Reg.wf : Reg → Bool
  | .reserved n => decide (18 ≤ n.toNat)
  | _ => true

/-- An instruction is well formed when its register name is. -/
def Instr.wf : Instr → Bool
  | .regrd r => r.wf
  | .regwr r _ => r.wf
  | _ => true

end Sys2Proof
end

