-- ==== Sys2Proof/Decode.lean ====
section
/-! DEFINITION. Decoding of command words, register port tuples and node words (30_encoding.md rules R101 and R104, 40_host_access.md rule R130, 10_state.md rule R30), and then the encoder. -/

namespace Sys2Proof

/-- Why a word is no instruction: the one kind of word the spec calls illegal. -/
inductive Reject where
  /-- A CMD word of 6 or more (30_encoding.md rule R103). -/
  | illegalCommand (w : Word)
  deriving DecidableEq, Repr

/-- Rule R101: all 32 bits of the word are compared. -/
def decodeCommand (w : Word) : Option Command :=
  if w = 0x00000000#32 then some .nop
  else if w = 0x00000001#32 then some .gen
  else if w = 0x00000002#32 then some .pack
  else if w = 0x00000003#32 then some .unpack
  else if w = 0x00000004#32 then some .clr
  else if w = 0x00000005#32 then some .srst
  else none

/-- The register with number `n` (10_state.md rule R30). -/
def Reg.ofNumber (n : BitVec 5) : Reg :=
  match n.toNat with
  | 0 => .cmd
  | 1 => .status
  | 2 => .irqen
  | 3 => .root
  | 4 => .nsym
  | 5 => .cnt
  | 6 => .tmAddr
  | 7 => .tmData
  | 8 => .lutSym
  | 9 => .lutLen
  | m => if m < 18 then .lutBits (BitVec.ofNat 3 (m - 10)) else .reserved n

/-- Rule R130: `reg_we` in bit 5 of the tuple, `reg_idx` below it; a read does not look at `reg_wdata`. -/
def decodePort (tuple : BitVec 6) (wdata : Word) : Instr :=
  if tuple.getLsbD 5 then .regwr (Reg.ofNumber (tuple.extractLsb' 0 5)) wdata
  else .regrd (Reg.ofNumber (tuple.extractLsb' 0 5))

/-- Rule R104: bit 18 is the kind; every 19-bit value is a node word (R107). -/
def decodeNode (w : NodeWord) : Instr :=
  if w.getLsbD 18 then .nodeInternal (w.extractLsb' 9 9) (w.extractLsb' 0 9)
  else .nodeLeaf (w.extractLsb' 8 10) (w.extractLsb' 0 8)

/-- Decoding, total: the instruction, or the name of what is wrong. -/
def decode : InstrWord → Except Reject Instr
  | .cmd w =>
    match decodeCommand w with
    | some c => .ok (.ofCommand c)
    | none => .error (.illegalCommand w)
  | .port t v => .ok (decodePort t v)
  | .node w => .ok (decodeNode w)

/-- The word an opcode-table row of `nbits` bits with value `w` stands for (log 15): 32 bits are a CMD word, up to 8
a REGPORT tuple (its `reg_wdata` all zeros), up to 24 a node word.
Bits above the tuple's 6 or the node word's 19 make it no word of the block. -/
def tableWord (nbits w : Nat) : Option InstrWord :=
  if nbits = 32 then
    if w < 2 ^ 32 then some (.cmd (BitVec.ofNat 32 w)) else none
  else if nbits = 6 ∨ nbits = 8 then
    if w < 2 ^ 6 then some (.port (BitVec.ofNat 6 w) 0#32) else none
  else if nbits = 19 ∨ nbits = 24 then
    if w < 2 ^ 19 then some (.node (BitVec.ofNat 19 w)) else none
  else none

/-- The instruction the decoder reads from an opcode-table word. -/
def decodeTableWord (nbits w : Nat) : Option Instr :=
  match tableWord nbits w with
  | none => none
  | some iw =>
    match decode iw with
    | .ok i => some i
    | .error _ => none

/-- The number of a register (10_state.md rule R30). -/
def Reg.number : Reg → BitVec 5
  | .cmd => 0#5
  | .status => 1#5
  | .irqen => 2#5
  | .root => 3#5
  | .nsym => 4#5
  | .cnt => 5#5
  | .tmAddr => 6#5
  | .tmData => 7#5
  | .lutSym => 8#5
  | .lutLen => 9#5
  | .lutBits k => BitVec.ofNat 5 (10 + k.toNat)
  | .reserved n => n

/-- The word of an instruction (rules R101, R104, R130). -/
def encode : Instr → InstrWord
  | .nop => .cmd 0x00000000#32
  | .gen => .cmd 0x00000001#32
  | .pack => .cmd 0x00000002#32
  | .unpack => .cmd 0x00000003#32
  | .clr => .cmd 0x00000004#32
  | .srst => .cmd 0x00000005#32
  | .regrd r => .port (0#1 ++ r.number) 0#32
  | .regwr r v => .port (1#1 ++ r.number) v
  | .nodeLeaf x sym => .node (0#1 ++ x ++ sym)
  | .nodeInternal low high => .node (1#1 ++ low ++ high)

end Sys2Proof
end

