-- ==== Sys2Proof/Config.lean ====
section
/-! DEFINITION. The parameters of 00_scope.md rule R10 that a rule computes with, and the two values the spec leaves open (93_implementation_defined.md U1, U3). -/

namespace Sys2Proof.Config

/-- `NODES`: the entries of the tree node memory. -/
def nodes : Nat := 512

/-- `NSYMBOLS`: the size of the alphabet. -/
def nSymbols : Nat := 256

/-- `MAXLEN`: the longest code, in bits. -/
def maxLen : CodeLen := 255#8

/-- FREE VALUE (U1, log 3): what an entry of TM holds before the host's first write to it.
The spec fixes nothing but that each entry holds the same word at every read until it is written. -/
opaque tmPowerUp : NodeIdx → NodeWord

/-- FREE VALUE (U3, log 5): what the k-th read of CNT made while BUSY = 1 returns. -/
opaque cntWhileBusy : Nat → Word

end Sys2Proof.Config
end

