-- ==== Sys2Proof/Machine/State.lean ====
section
/-! DEFINITION. The state of the block (10_state.md rule R20), the world around it (00_scope.md rule R9), the reasons a step can stop, and the state after reset (10_state.md rule R60). -/

namespace Sys2Proof.Machine

/-- The three operations the engine runs. -/
inductive Op where
  | gen | pack | unpack
  deriving DecidableEq, Repr

/-- PHASE (rule R48). DRAIN carries the operation that called `finish`, which the completion step needs (41_control_commands.md rule R166; DEDUCED, log 7). -/
inductive Phase where
  | idle | gen | pack | unpack
  | drain (op : Op)
  deriving DecidableEq, Repr

/-- The error codes of 60_exceptions.md rule R240; codes 8 to 15 are never produced. -/
inductive ErrCode where
  | none | illegalCmd | noLut | noCode | underrun | truncated | treeDepth | dupSym
  deriving DecidableEq, Repr

/-- The length and the integer value of a code (30_encoding.md rule R109). -/
structure Code where
  len : CodeLen
  value : CodeVal
  deriving DecidableEq, Repr

/-- What `Lookup` answers: the triple `(v, len, code)` (42_code_lut.md rule R186). -/
structure LutEntry where
  v : Bool
  len : CodeLen
  code : CodeVal
  deriving DecidableEq, Repr

/-- TM, by index: the entries the host has written, indices strictly rising (`Memory.wf`).
An unlisted entry holds no written word, and a read of it gives the free value `Config.tmPowerUp` (log 3). -/
abbrev Memory := List (Nat × NodeWord)

/-- The raw LUT, by symbol: the entries with `v` = 1, symbols strictly rising (`CodeTable.wf`).
An unlisted entry has `v` = 0 (log 4). -/
abbrev CodeTable := List (Nat × Code)

/-- One pending node of GEN's traversal: its index, the value and the length of the path to it (rule R54; 42_code_lut.md rule R181). -/
structure GenItem where
  node : NodeIdx
  path : CodeVal
  len : CodeLen
  deriving DecidableEq, Repr

/-- GEN's working storage (rule R54, log 8): before its first statement, or the nodes still to visit, next one first. -/
inductive GenWork where
  | fresh
  | visiting (stack : List GenItem)
  deriving DecidableEq, Repr

/-- The packer's accumulator while bits are appended: ACC, FILL (rule R50) and the bytes output, first one first. -/
structure BitWriter where
  acc : Byte
  fill : BitVec 3
  out : List Byte
  deriving DecidableEq, Repr

/-- One event to come (00_scope.md rule R7, log 1). -/
inductive Event where
  /-- The host writes the command word `w` to CMD (30_encoding.md rule R101). -/
  | command (w : Word)
  /-- A register access: the tuple (reg_we, reg_idx) and `reg_wdata` (10_state.md rule R23). -/
  | access (tuple : BitVec 6) (wdata : Word)
  /-- The host polls STATUS until BUSY reads 0 (30_encoding.md rule R116, `wait`); what moves between two polls is the model's choice (log 20). -/
  | wait
  /-- The engine's turn. -/
  | engine
  /-- The sink takes the head of OQ, if there is one (rule R25). -/
  | accept
  /-- From now on the sink accepts by itself, or does not. -/
  | sinkReady (ready : Bool)
  /-- The source gets one more byte to offer (rule R24). -/
  | offer (b : Byte)
  /-- The source shows the end-of-stream mark after its last byte (rule R24). -/
  | endMark
  /-- The host repositions the source (70_reset_and_hazards.md rule R297 d). -/
  | reposition (bytes : List Byte) (eos : Bool)
  /-- An edge with `rst` = 1 (rule R22). -/
  | reset
  deriving DecidableEq, Repr

/-- The world around the block: the events to come, the source, the sink, and what the host last read. None of it is state of the block (rule R20). -/
structure Env where
  /-- The events to come, in order. -/
  events : List Event
  /-- The bytes the source still offers, next one first. -/
  source : List Byte
  /-- The end-of-stream mark follows those bytes. -/
  eos : Bool
  /-- The sink accepts by itself. -/
  sinkReady : Bool
  /-- The bytes the sink has received, first one first. -/
  delivered : List Byte
  /-- The value of the host's last REGRD (rule R23). -/
  rdata : Word
  deriving DecidableEq, Repr

/-- The state: the block's registers, flags, engine registers, memories and queue (rule R20), a counter of free values, and the world around it. -/
structure State where
  /-- IRQEN.IE (rule R33). -/
  ie : Bool
  /-- ROOT (rule R34). -/
  root : NodeIdx
  /-- NSYM (rule R35). -/
  nsym : Word
  /-- CNT (rule R36). -/
  cnt : Word
  /-- TM_ADDR (rule R37). -/
  tmAddr : NodeIdx
  /-- LUT_SYM (rule R39). -/
  lutSym : Sym
  /-- STATUS.DONE (rule R45). -/
  done : Bool
  /-- STATUS.LUT_VALID (rule R46). -/
  lutValid : Bool
  /-- STATUS.ERR (rule R47). -/
  err : ErrCode
  /-- PHASE (rule R48). -/
  phase : Phase
  /-- PENDERR (rule R49). -/
  penderr : ErrCode
  /-- ACC (rule R50). -/
  acc : Byte
  /-- FILL (rule R50). -/
  fill : BitVec 3
  /-- CUR (rule R51). -/
  cur : NodeIdx
  /-- DEPTH (rule R52). -/
  depth : BitVec 8
  /-- SHREG (rule R53). -/
  shreg : Byte
  /-- BITS_LEFT (rule R53). -/
  bitsLeft : BitVec 4
  /-- GEN's working storage (rule R54). -/
  gen : GenWork
  /-- TM (rule R55). -/
  tm : Memory
  /-- LUT (rule R56). -/
  lut : CodeTable
  /-- OQ (rule R58), head first. -/
  oq : List Byte
  /-- The model's own: how many reads of CNT have been made while BUSY = 1 (log 5). -/
  freeReads : Nat
  /-- The world around the block. -/
  env : Env
  deriving DecidableEq, Repr

/-- The reasons a step stops with a fault: none.
The spec gives the block no fault: every register number, index and data word answers (20_memory.md rules R71 and R72, 30_encoding.md rule R107, 40_host_access.md rule R146), and an operation's error is a state (60_exceptions.md rule R246). -/
inductive Fault where
  deriving DecidableEq, Repr

/-- The reasons a step gives no transition. -/
inductive Refusal where
  /-- Raised only by an arm of `exec` whose instruction has no meaning yet; safe. -/
  | notModelled (mnemonic : String)
  /-- Raised by an event of the source that takes back what it is bound to show to a running PACK or UNPACK (70_reset_and_hazards.md rule R297; 93_implementation_defined.md U7, whose treatment is `refuse`; log 12); safe.
  No instruction raises it. -/
  | sourceProtocol
  deriving DecidableEq, Repr

/-- The world before anything has happened: no event to come, a silent source, a ready sink (DESIGN CHOICE, log 11). -/
def Env.initial : Env :=
  { events := [], source := [], eos := false, sinkReady := true, delivered := [], rdata := 0#32 }

/-- The state right after reset (rule R60). TM and the raw LUT are not touched by reset: no entry of TM written (log 3), no entry of LUT valid (log 4). -/
def State.reset : State :=
  { ie := false, root := 0#9, nsym := 0#32, cnt := 0#32, tmAddr := 0#9, lutSym := 0#8
    done := false, lutValid := false, err := .none
    phase := .idle, penderr := .none, acc := 0#8, fill := 0#3, cur := 0#9, depth := 0#8
    shreg := 0#8, bitsLeft := 0#4, gen := .fresh
    tm := [], lut := [], oq := [], freeReads := 0, env := Env.initial }

end Sys2Proof.Machine
end

