-- ==== Sys2Proof/Machine/Flags.lean ====
section
/-! DEFINITION. The status flags, the STATUS word, the error codes as numbers and the interrupt line (10_state.md rules R26, R32, R44 to R47; 60_exceptions.md rules R240 and R243). -/

namespace Sys2Proof.Machine

/-- The 4-bit code of an error (60_exceptions.md rule R240). -/
def ErrCode.code : ErrCode → BitVec 4
  | .none => 0#4
  | .illegalCmd => 1#4
  | .noLut => 2#4
  | .noCode => 3#4
  | .underrun => 4#4
  | .truncated => 5#4
  | .treeDepth => 6#4
  | .dupSym => 7#4

/-- BUSY = 1 exactly when PHASE is not IDLE (rule R44). -/
def busy (s : State) : Bool :=
  match s.phase with
  | .idle => false
  | .gen | .pack | .unpack | .drain _ => true

/-- The interrupt line: IE AND DONE (rule R26). -/
def irq (s : State) : Bool :=
  s.ie && s.done

/-- What a read of STATUS returns: `zext_32(ERR ++ 0b0 ++ LUT_VALID ++ DONE ++ BUSY)` (40_host_access.md rule R134). -/
def statusWord (s : State) : Word :=
  (s.err.code ++ 0#1 ++ BitVec.ofBool s.lutValid ++ BitVec.ofBool s.done ++ BitVec.ofBool (busy s)).setWidth 32

/-- DONE and ERR to 0, as CLR and the acceptance of an operation do (41_control_commands.md rules R163 and R164). -/
def clearResult (s : State) : State :=
  { s with done := false, err := .none }

/-- LUT_VALID to 0: the code table goes stale (20_memory.md rule R91). -/
def clearLutValid (s : State) : State :=
  { s with lutValid := false }

/-- LUT_VALID at the completion step: set by a GEN without error, otherwise as it was (41_control_commands.md rule R166). -/
def lutValidAfter (op : Op) (s : State) : Bool :=
  match op, s.penderr with
  | .gen, .none => true
  | _, _ => s.lutValid

end Sys2Proof.Machine
end

