-- ==== Sys2Proof/Machine/Ops.lean ====
section
/-! DEFINITION. The shared operations: the cells of TM and LUT, the streams, the end of an operation and its errors, the acceptance of commands, and reset. -/

namespace Sys2Proof.Machine

/-! ## Cells: a sparse table in one canonical form -/

/-- The value listed at `a`, if any. -/
def cellGet {α : Type} : List (Nat × α) → Nat → Option α
  | [], _ => none
  | (k, v) :: m, a => if k = a then some v else cellGet m a

/-- The table with `v` listed at `a`, and every other entry as it was. -/
def cellPut {α : Type} : List (Nat × α) → Nat → α → List (Nat × α)
  | [], a, v => [(a, v)]
  | (k, w) :: m, a, v =>
    if a < k then (a, v) :: (k, w) :: m
    else if a = k then (a, v) :: m
    else (k, w) :: cellPut m a v

/-- The canonical form: keys strictly rising, all below `bound`. -/
def cellsWf {α : Type} (bound : Nat) (m : List (Nat × α)) : Bool :=
  decide (m.Pairwise (fun x y => x.1 < y.1)) && m.all (fun x => decide (x.1 < bound))

/-- TM's canonical form: indices of written entries strictly rising, below 512. -/
def Memory.wf (m : Memory) : Bool :=
  cellsWf Config.nodes m

/-- LUT's canonical form: symbols with a code strictly rising, below 256. -/
def CodeTable.wf (t : CodeTable) : Bool :=
  cellsWf Config.nSymbols t

/-! ## The node memory -/

/-- `MemRead(a, 1)` (20_memory.md rule R72): the word last written to the entry, or its free power-up content (10_state.md rule R55, log 3). -/
def memRead (s : State) (a : NodeIdx) : NodeWord :=
  match cellGet s.tm a.toNat with
  | some w => w
  | none => Config.tmPowerUp a

/-- `MemWrite(a, 1, v)` (00_scope.md rule R13). -/
def memWrite (a : NodeIdx) (v : NodeWord) (s : State) : State :=
  { s with tm := cellPut s.tm a.toNat v }

/-! ## The streams -/

/-- What the source shows when the engine asks (00_scope.md rule R14). -/
inductive InItem where
  | byte (b : Byte)
  | eos
  | nothing
  deriving DecidableEq, Repr

/-- `InNext()` (00_scope.md rule R14; 10_state.md rule R24: an offered byte wins over the mark). -/
def inNext (s : State) : InItem :=
  match s.env.source with
  | b :: _ => .byte b
  | [] => if s.env.eos then .eos else .nothing

/-- The transfer of the offered byte: it is removed from the source. -/
def takeByte (s : State) : State :=
  { s with env := { s.env with source := s.env.source.tail } }

/-- `OutPut(b)` (00_scope.md rule R15): append at the tail of OQ. -/
def outPut (b : Byte) (s : State) : State :=
  { s with oq := s.oq ++ [b] }

/-- `out_valid` (10_state.md rule R25). -/
def outValid (s : State) : Bool :=
  !s.oq.isEmpty

/-- `out_data`: the head of OQ; no rule defines a value when there is none (U9, log 17). -/
def outData (s : State) : Option Byte :=
  s.oq.head?

/-- A sink transfer: the head of OQ is removed and delivered (10_state.md rule R25); nothing happens when OQ is empty. -/
def sinkTransfer (s : State) : State :=
  match s.oq with
  | [] => s
  | b :: rest => { s with oq := rest, env := { s.env with delivered := s.env.delivered ++ [b] } }

/-! ## The end of an operation: how an error is taken and posted -/

/-- `finish(e)` up to DRAIN (41_control_commands.md rule R166), which is also how an error is raised (60_exceptions.md rule R246): the code waits in PENDERR, the engine executes no further statement, and GEN's storage is given up (10_state.md rule R54). -/
def finish (op : Op) (e : ErrCode) (s : State) : State :=
  { s with penderr := e, phase := .drain op, gen := .fresh }

/-- The completion step (rule R166), one event: BUSY falls, ERR takes the code, DONE rises. -/
def complete (op : Op) (s : State) : State :=
  { s with phase := .idle, err := s.penderr, done := true, lutValid := lutValidAfter op s }

/-- An illegal command acted on while idle (rule R165): the one error not posted through `finish`. -/
def illegalCommand (s : State) : State :=
  { s with err := .illegalCmd, done := true }

/-! ## Reset and the acceptance of commands -/

/-- The reset event (70_reset_and_hazards.md rule R280): TM and the raw LUT are not changed, nor is the world around the block (log 19). -/
def resetEvent (s : State) : State :=
  { s with
    phase := .idle, done := false, lutValid := false, err := .none, penderr := .none
    ie := false, root := 0#9, nsym := 0#32, cnt := 0#32, tmAddr := 0#9, lutSym := 0#8
    acc := 0#8, fill := 0#3, cur := 0#9, depth := 0#8, shreg := 0#8, bitsLeft := 0#4
    gen := .fresh, oq := [] }

/-- What the acceptance of every operation does (41_control_commands.md rule R164). -/
def startOperation (p : Phase) (s : State) : State :=
  { clearResult s with penderr := .none, cnt := 0#32, phase := p }

/-- Acceptance of GEN (rule R164). -/
def acceptGen (s : State) : State :=
  { startOperation .gen (clearLutValid s) with gen := .fresh }

/-- Acceptance of PACK (rule R164). -/
def acceptPack (s : State) : State :=
  { startOperation .pack s with acc := 0#8, fill := 0#3 }

/-- Acceptance of UNPACK (rule R164). -/
def acceptUnpack (s : State) : State :=
  { startOperation .unpack s with cur := s.root, depth := 0#8, shreg := 0#8, bitsLeft := 0#4 }

/-- A write is acted on only while the block is idle (40_host_access.md rule R131); a dropped write changes nothing. -/
def whenIdle (f : State → State) (s : State) : State :=
  if busy s then s else f s

/-- What an accepted command word does (41_control_commands.md rule R160); `none` is a word that matches no command. -/
def performCommand : Option Command → State → State
  | some .srst, s => resetEvent s
  | some .nop, s => s
  | some .gen, s => acceptGen s
  | some .pack, s => acceptPack s
  | some .unpack, s => acceptUnpack s
  | some .clr, s => clearResult s
  | none, s => illegalCommand s

/-! ## The world around the block -/

/-- The state with `es` as the events to come. -/
def setEvents (es : List Event) (s : State) : State :=
  { s with env := { s.env with events := es } }

/-- The host receives `v` on `reg_rdata` (10_state.md rule R23). -/
def setRdata (v : Word) (s : State) : State :=
  { s with env := { s.env with rdata := v } }

end Sys2Proof.Machine
end

