-- ==== Sys2Proof/Machine/Operands.lean ====
section
/-! DEFINITION. The operand forms: the fields of a node word (30_encoding.md rule R104), `Lookup` (42_code_lut.md rule R186), the bits of a code (30_encoding.md rule R109), and every register as a read returns it and as an accepted write stores it (40_host_access.md rules R133 to R145). -/

namespace Sys2Proof.Machine

/-! ## Node words -/

/-- `kind(w)`: bit 18, 1 = Internal. -/
def isInternal (w : NodeWord) : Bool := w.getLsbD 18

/-- `sym(w)`: bits 7:0 of a Leaf. -/
def symOf (w : NodeWord) : Sym := w.extractLsb' 0 8

/-- `low(w)`: bits 17:9 of an Internal word, the child a 0 bit selects. -/
def lowOf (w : NodeWord) : NodeIdx := w.extractLsb' 9 9

/-- `high(w)`: bits 8:0 of an Internal word, the child a 1 bit selects. -/
def highOf (w : NodeWord) : NodeIdx := w.extractLsb' 0 9

/-- The child a bit selects (rule R106). -/
def childOf (b : Bool) (w : NodeWord) : NodeIdx := if b then highOf w else lowOf w

/-! ## Codes -/

/-- A path value with one bit appended at the low end (rule R110). -/
def appendPath (p : CodeVal) (b : Bool) : CodeVal := (p <<< 1) ||| (BitVec.ofBool b).setWidth 255

/-- The bits of a code, first bit first: bit k is `code[len - 1 - k]` (rule R109). -/
def codeBits (len : CodeLen) (code : CodeVal) : List Bool :=
  (List.range len.toNat).map (fun k => code.getLsbD (len.toNat - 1 - k))

/-- `Lookup(s)` (rule R186): masked while LUT_VALID = 0. -/
def lookup (s : State) (sym : Sym) : LutEntry :=
  if s.lutValid then
    match cellGet s.lut sym.toNat with
    | some c => { v := true, len := c.len, code := c.value }
    | none => { v := false, len := 0#8, code := 0#255 }
  else { v := false, len := 0#8, code := 0#255 }

/-! ## Host registers -/

/-- The value a read returns (rules R133 to R145). CNT while busy is a free value (rule R139, log 5). -/
def readReg (r : Reg) (s : State) : Word :=
  match r with
  | .cmd => 0#32
  | .status => statusWord s
  | .irqen => (BitVec.ofBool s.ie).setWidth 32
  | .root => s.root.setWidth 32
  | .nsym => s.nsym
  | .cnt => if busy s then Config.cntWhileBusy s.freeReads else s.cnt
  | .tmAddr => s.tmAddr.setWidth 32
  | .tmData => (memRead s s.tmAddr).setWidth 32
  | .lutSym => s.lutSym.setWidth 32
  | .lutLen =>
    let e := lookup s s.lutSym
    BitVec.ofBool e.v ++ 0#23 ++ e.len
  | .lutBits k =>
    let e := lookup s s.lutSym
    (e.code.setWidth 256).extractLsb' (32 * k.toNat) 32
  | .reserved _ => 0#32

/-- A read changes no state of the block (rule R132); a read of CNT while busy moves on to the next free value (log 5). -/
def afterRead (r : Reg) (s : State) : State :=
  match r with
  | .cnt => if busy s then { s with freeReads := s.freeReads + 1 } else s
  | _ => s

/-- What an accepted write does (rules R133 to R145); writes to read-only and reserved registers do nothing. -/
def writeReg (r : Reg) (v : Word) (s : State) : State :=
  match r with
  | .cmd => performCommand (decodeCommand v) s
  | .status => s
  | .irqen => { s with ie := v.getLsbD 0 }
  | .root => clearLutValid { s with root := v.extractLsb' 0 9 }
  | .nsym => { s with nsym := v }
  | .cnt => s
  | .tmAddr => { s with tmAddr := v.extractLsb' 0 9 }
  | .tmData => clearLutValid (memWrite s.tmAddr (v.extractLsb' 0 19) s)
  | .lutSym => { s with lutSym := v.extractLsb' 0 8 }
  | .lutLen => s
  | .lutBits _ => s
  | .reserved _ => s

/-- Rule R131: a write is dropped while BUSY = 1, but for CMD <- SRST. -/
def writeAccepted (r : Reg) (v : Word) (s : State) : Bool :=
  !busy s || (decide (r = .cmd) && decide (v = 0x00000005#32))

end Sys2Proof.Machine
end

