-- ==== Sys2Proof/Machine/Control.lean ====
section
/-! DEFINITION. The commands as the host writes them: NOP, CLR, SRST (41_control_commands.md rules R161 to R163) and the acceptance of GEN, PACK and UNPACK (rule R164). Each is dropped while BUSY = 1, but SRST (40_host_access.md rule R131). -/

namespace Sys2Proof.Machine

/-- NOP (rule R162): accepted when idle, does nothing. -/
def execNop (s : State) : Host.Outcome State Fault Refusal :=
  .next (whenIdle (fun t => t) s)

/-- GEN (rules R164 and R181): the write event starts the operation; the engine's part is in CodeLut.lean. -/
def execGen (s : State) : Host.Outcome State Fault Refusal :=
  .next (whenIdle acceptGen s)

/-- PACK (rules R164 and R201): the write event starts the operation; the engine's part is in Pack.lean. -/
def execPack (s : State) : Host.Outcome State Fault Refusal :=
  .next (whenIdle acceptPack s)

/-- UNPACK (rules R164 and R221): the write event starts the operation; the engine's part is in Unpack.lean. -/
def execUnpack (s : State) : Host.Outcome State Fault Refusal :=
  .next (whenIdle acceptUnpack s)

/-- CLR (rule R163): DONE and ERR to 0. -/
def execClr (s : State) : Host.Outcome State Fault Refusal :=
  .next (whenIdle clearResult s)

/-- SRST (rule R161): the reset event, idle or busy. -/
def execSrst (s : State) : Host.Outcome State Fault Refusal :=
  .next (resetEvent s)

end Sys2Proof.Machine
end

