-- ==== Sys2Proof/Machine/HostAccess.lean ====
section
/-! DEFINITION. Host register access: REGRD and REGWR (40_host_access.md). -/

namespace Sys2Proof.Machine

/-- REGRD (rules R130 and R132): always acted on; the host receives the value of the state before the event. -/
def execRegrd (r : Reg) (s : State) : Host.Outcome State Fault Refusal :=
  .next (setRdata (readReg r s) (afterRead r s))

/-- REGWR (rules R130 and R131): acted on or dropped, one atomic event. -/
def execRegwr (r : Reg) (v : Word) (s : State) : Host.Outcome State Fault Refusal :=
  .next (if writeAccepted r v s then writeReg r v s else s)

end Sys2Proof.Machine
end

