-- ==== Sys2Proof/Machine/CodeLut.lean ====
section
/-! DEFINITION. The engine's part of GEN: the traversal of 42_code_lut.md rule R181, one visited node a step, with the explicit stack of 10_state.md rule R54 (log 8). -/

namespace Sys2Proof.Machine

/-- GEN's first statements: every entry's `v` to 0, and the visit of ROOT with the empty path begins. -/
def genStart (s : State) : State :=
  { s with lut := [], gen := .visiting [{ node := s.root, path := 0#255, len := 0#8 }] }

/-- `visit` at a Leaf with symbol `sym`: DupSym, or the entry is recorded and counted. -/
def genLeaf (sym : Sym) (it : GenItem) (rest : List GenItem) (s : State) : State :=
  match cellGet s.lut sym.toNat with
  | some _ => finish .gen .dupSym s
  | none =>
    { s with
      lut := cellPut s.lut sym.toNat { len := it.len, value := it.path }
      cnt := s.cnt + 1#32
      gen := .visiting rest }

/-- `visit` at an Internal word: TreeDepth, or its children are to visit next, the low subtree wholly first (rule R182). -/
def genInternal (low high : NodeIdx) (it : GenItem) (rest : List GenItem) (s : State) : State :=
  if it.len = Config.maxLen then finish .gen .treeDepth s
  else
    { s with
      gen := .visiting
        ({ node := low, path := appendPath it.path false, len := it.len + 1#8 } ::
         { node := high, path := appendPath it.path true, len := it.len + 1#8 } :: rest) }

end Sys2Proof.Machine
end

