-- ==== Sys2Proof/Machine/Unpack.lean ====
section
/-! DEFINITION. The engine's part of UNPACK (44_unpack.md rule R221), one node word a step. -/

namespace Sys2Proof.Machine

/-- A Leaf: its symbol is output and counted, and the next walk starts at the root. -/
def unpackLeaf (sym : Sym) (s : State) : State :=
  { outPut sym s with cnt := s.cnt + 1#32, cur := s.root, depth := 0#8 }

/-- The last fetched byte's next bit is consumed, most significant first, and the walk moves to the child it selects. -/
def unpackBit (low high : NodeIdx) (s : State) : State :=
  { s with
    cur := if s.shreg.getLsbD 7 then high else low
    shreg := s.shreg <<< 1
    bitsLeft := s.bitsLeft - 1#4
    depth := s.depth + 1#8 }

/-- The fetch of a byte (rule R222): SHREG takes it, all eight bits are left. -/
def fetchByte (b : Byte) (s : State) : State :=
  { takeByte s with shreg := b, bitsLeft := 8#4 }

/-- An Internal word: TreeDepth first (rule R226), then the bit, fetched if none is left; Truncated at the end of the stream (rule R225). While the source shows nothing the engine waits. -/
def unpackInternal (low high : NodeIdx) (s : State) : State :=
  if s.depth = Config.maxLen then finish .unpack .treeDepth s
  else if s.bitsLeft = 0#4 then
    match inNext s with
    | .nothing => s
    | .eos => finish .unpack .truncated s
    | .byte b => unpackBit low high (fetchByte b s)
  else unpackBit low high s

end Sys2Proof.Machine
end

