-- ==== Sys2Proof/Machine/NodeWords.lean ====
section
/-! DEFINITION. The two node words as the engine executes them: in UNPACK the word at CUR (44_unpack.md rule R221), in GEN the word of the next node to visit (42_code_lut.md rule R181). In every other phase, before GEN's first statement, and once the loop of UNPACK or the traversal of GEN is over, no node word is executed and nothing happens (20_memory.md rule R86; DEDUCED, log 10). -/

namespace Sys2Proof.Machine

/-- NODE.LEAF; bits 17:8 are ignored (30_encoding.md rule R105). -/
def execNodeLeaf (_x : BitVec 10) (sym : Sym) (s : State) : Host.Outcome State Fault Refusal :=
  match s.phase with
  | .unpack => .next (if s.cnt = s.nsym then s else unpackLeaf sym s)
  | .gen =>
    match s.gen with
    | .visiting (it :: rest) => .next (genLeaf sym it rest s)
    | .visiting [] => .next s
    | .fresh => .next s
  | .idle => .next s
  | .pack => .next s
  | .drain _ => .next s

/-- NODE.INTERNAL (30_encoding.md rule R106). -/
def execNodeInternal (low high : NodeIdx) (s : State) : Host.Outcome State Fault Refusal :=
  match s.phase with
  | .unpack => .next (if s.cnt = s.nsym then s else unpackInternal low high s)
  | .gen =>
    match s.gen with
    | .visiting (it :: rest) => .next (genInternal low high it rest s)
    | .visiting [] => .next s
    | .fresh => .next s
  | .idle => .next s
  | .pack => .next s
  | .drain _ => .next s

end Sys2Proof.Machine
end

