-- ==== Sys2Proof/Machine/Pack.lean ====
section
/-! DEFINITION. The engine's part of PACK (43_pack.md rule R201), one symbol a step (log 13). -/

namespace Sys2Proof.Machine

/-- The byte with bit `i` set to `b`. -/
def setBit (a : Byte) (i : Nat) (b : Bool) : Byte :=
  (a &&& ~~~(1#8 <<< i)) ||| ((BitVec.ofBool b).setWidth 8 <<< i)

/-- The append step for one bit (rule R203): to position 7 - FILL of ACC; the eighth bit outputs the byte and clears the accumulator. -/
def putBit (w : BitWriter) (b : Bool) : BitWriter :=
  let a := setBit w.acc (7 - w.fill.toNat) b
  if w.fill = 7#3 then { acc := 0#8, fill := 0#3, out := w.out ++ [a] }
  else { acc := a, fill := w.fill + 1#3, out := w.out }

/-- Bits appended in order, first bit first. -/
def putBits (w : BitWriter) (bits : List Bool) : BitWriter :=
  bits.foldl putBit w

/-- The code of one symbol appended whole, and CNT + 1 (rule R201). -/
def packSymbol (e : LutEntry) (s : State) : State :=
  let w := putBits { acc := s.acc, fill := s.fill, out := [] } (codeBits e.len e.code)
  { s with acc := w.acc, fill := w.fill, oq := s.oq ++ w.out, cnt := s.cnt + 1#32 }

/-- The flush (rule R204): a partial byte is output once, its padding bits 0. -/
def flush (s : State) : State :=
  if s.fill = 0#3 then s
  else { outPut s.acc s with acc := 0#8, fill := 0#3 }

/-- PACK's first statement raises NoLut (rule R202). It is reached with CNT = 0 only (log 9). -/
def packNoLut (s : State) : Bool :=
  decide (s.cnt = 0#32) && decide (s.nsym ≠ 0#32) && !s.lutValid

/-- One pass of PACK (rule R201): NoLut, the end with its flush, or one symbol. While the source shows nothing the engine waits (00_scope.md rule R14). -/
def packPass (s : State) : State :=
  if packNoLut s then finish .pack .noLut s
  else if s.cnt = s.nsym then finish .pack .none (flush s)
  else
    match inNext s with
    | .nothing => s
    | .eos => finish .pack .underrun s
    | .byte b =>
      if (lookup s b).v then packSymbol (lookup s b) (takeByte s)
      else finish .pack .noCode (takeByte s)

end Sys2Proof.Machine
end

