-- ==== Sys2Proof/Machine/Dispatch.lean ====
section
/-! DEFINITION. One arm per instruction: which meaning each row of the opcode table has. -/

namespace Sys2Proof.Machine

def exec (i : Instr) (s : State) : Host.Outcome State Fault Refusal :=
  match i with
  | .nop => Sys2Proof.Machine.execNop s
  | .gen => Sys2Proof.Machine.execGen s
  | .pack => Sys2Proof.Machine.execPack s
  | .unpack => Sys2Proof.Machine.execUnpack s
  | .clr => Sys2Proof.Machine.execClr s
  | .srst => Sys2Proof.Machine.execSrst s
  | .regrd r => Sys2Proof.Machine.execRegrd r s
  | .regwr r v => Sys2Proof.Machine.execRegwr r v s
  | .nodeLeaf x sym => Sys2Proof.Machine.execNodeLeaf x sym s
  | .nodeInternal low high => Sys2Proof.Machine.execNodeInternal low high s

end Sys2Proof.Machine
end

