-- ==== Sys2Proof/Machine/Engine.lean ====
section
/-! DEFINITION. What a step calls: the engine's turn with its fetch of a node word, the host's accesses with their decoding, the source, the sink, reset, and the order in which they move (00_scope.md rules R7 and R9; 10_state.md rules R22 to R25). -/

namespace Sys2Proof.Machine

/-- The engine stands inside `InNext()`: in PACK before its next symbol, in UNPACK on an Internal word with no bit left (43_pack.md rule R201, 44_unpack.md rule R221).
It is the port `in_ready` (10_state.md rule R24). -/
def inReady (s : State) : Bool :=
  match s.phase with
  | .pack => !packNoLut s && decide (s.cnt ≠ s.nsym)
  | .unpack =>
    decide (s.cnt ≠ s.nsym) && isInternal (memRead s s.cur) && decide (s.depth ≠ Config.maxLen)
      && decide (s.bitsLeft = 0#4)
  | .idle | .gen | .drain _ => false

/-- The engine has an enabled step (60_exceptions.md rule R251). -/
def engineEnabled (s : State) : Bool :=
  match s.phase with
  | .idle => false
  | .gen => true
  | .pack | .unpack => !inReady s || decide (inNext s ≠ .nothing)
  | .drain _ => s.oq.isEmpty

/-- One engine step; a step that is not enabled leaves the state as it is. -/
def engineStep (s : State) : Host.Outcome State Fault Refusal :=
  match s.phase with
  | .idle => .next s
  | .gen =>
    match s.gen with
    | .fresh => .next (genStart s)
    | .visiting [] => .next (finish .gen .none s)
    | .visiting (it :: _) => exec (decodeNode (memRead s it.node)) s
  | .pack => .next (packPass s)
  | .unpack =>
    if s.cnt = s.nsym then .next (finish .unpack .none s)
    else exec (decodeNode (memRead s s.cur)) s
  | .drain op => .next (if s.oq.isEmpty then complete op s else s)

/-- A write of the word `w` to CMD: the decoded command, or an illegal word (41_control_commands.md rules R160 and R165). -/
def hostCommand (w : Word) (s : State) : Host.Outcome State Fault Refusal :=
  match decode (.cmd w) with
  | .ok i => exec i s
  | .error (.illegalCommand _) => .next (whenIdle illegalCommand s)

/-- A register access (10_state.md rule R23). -/
def hostAccess (tuple : BitVec 6) (wdata : Word) (s : State) : Host.Outcome State Fault Refusal :=
  exec (decodePort tuple wdata) s

/-- With no event left to come the block runs by itself: the engine if it has an enabled step, else the sink if it is ready, else nothing moves (log 1, log 18). -/
def freeRun (s : State) : Host.Outcome State Fault Refusal :=
  if engineEnabled s then engineStep s
  else if s.env.sinkReady then .next (sinkTransfer s)
  else .next s

/-- What the source shows now it must go on showing (10_state.md rule R24, 70_reset_and_hazards.md rule R297).
The mark binds until the PACK or UNPACK it was shown to has completed (R297 b), DRAIN included; an offered byte binds while PACK or UNPACK can still ask for it (R297 a, d).
Nothing binds while the source is silent, in IDLE, or in GEN, which uses no stream (42_code_lut.md rule R181). -/
def sourceBound (s : State) : Bool :=
  match inNext s, s.phase with
  | .nothing, _ => false
  | .byte _, .pack | .byte _, .unpack => true
  | .eos, .pack | .eos, .unpack | .eos, .drain .pack | .eos, .drain .unpack => true
  | .byte _, .idle | .byte _, .gen | .byte _, .drain _ => false
  | .eos, .idle | .eos, .gen | .eos, .drain .gen => false

/-- The source comes to offer `bytes`, with the mark after them or not.
It breaks the stream protocol when it takes back what it is bound to show (93_implementation_defined.md U7, log 12). -/
def moveSource (bytes : List Byte) (eos : Bool) (s : State) : Host.Outcome State Fault Refusal :=
  if sourceBound s && decide (inNext { s with env := { s.env with source := bytes, eos := eos } } ≠ inNext s) then
    .refused .sourceProtocol
  else .next { s with env := { s.env with source := bytes, eos := eos } }

/-- The source gets one more byte, after those it still offers; the mark, if it was to follow them, no longer does (log 12). -/
def offerByte (b : Byte) (s : State) : Host.Outcome State Fault Refusal :=
  moveSource (s.env.source ++ [b]) false s

/-- The stream ends after the bytes the source still offers (10_state.md rule R24). -/
def showEndMark (s : State) : State :=
  { s with env := { s.env with eos := true } }

/-- The host repositions the source (rule R297 d). -/
def repositionSource (bytes : List Byte) (eos : Bool) (s : State) : Host.Outcome State Fault Refusal :=
  moveSource bytes eos s

/-- The sink becomes ready, or stops being ready. -/
def setSinkReady (ready : Bool) (s : State) : State :=
  { s with env := { s.env with sinkReady := ready } }

/-- The next event.
DESIGN CHOICE (log 20): which events fall between two polls of a `wait` (30_encoding.md rule R116) is open (20_memory.md rule R85).
Here a `wait` stays first in the list while BUSY = 1; each step then lets the engine move if it has an enabled step, else a ready sink; no STATUS read is made and every later event of the list is held back until BUSY = 0, when one read gives the result.
A `wait` on a stuck block (60_exceptions.md rule R251) therefore never ends. -/
def nextEvent (s : State) : Host.Outcome State Fault Refusal :=
  match s.env.events with
  | [] => freeRun s
  | .command w :: rest => hostCommand w (setEvents rest s)
  | .access tuple wdata :: rest => hostAccess tuple wdata (setEvents rest s)
  | .wait :: rest => if busy s then freeRun s else exec (.regrd .status) (setEvents rest s)
  | .engine :: rest => engineStep (setEvents rest s)
  | .accept :: rest => .next (sinkTransfer (setEvents rest s))
  | .sinkReady ready :: rest => .next (setSinkReady ready (setEvents rest s))
  | .offer b :: rest => offerByte b (setEvents rest s)
  | .endMark :: rest => .next (showEndMark (setEvents rest s))
  | .reposition bytes eos :: rest => repositionSource bytes eos (setEvents rest s)
  | .reset :: rest => .next (resetEvent (setEvents rest s))

/-- The state in which the very next step runs the instruction of `w` (log 2): a command or an access is the next event; a node word is placed in TM at CUR, with the engine in UNPACK, a symbol still to emit, and the engine's turn next. -/
def placeWord (w : InstrWord) (s : State) : State :=
  match w with
  | .cmd v => setEvents (.command v :: s.env.events) s
  | .port t v => setEvents (.access t v :: s.env.events) s
  | .node v =>
    setEvents (.engine :: s.env.events)
      { memWrite s.cur v s with
        phase := .unpack
        nsym := if s.cnt = s.nsym then s.nsym + 1#32 else s.nsym }

end Sys2Proof.Machine
end

