-- ==== Sys2Proof/Machine/Step.lean ====
section
/-! DEFINITION. One step of the machine: its next event. And the state in which the next step runs a given opcode-table word. -/

namespace Sys2Proof.Machine

/-- One step: the next event, whole (20_memory.md rule R85). -/
def step (s : State) : Host.Outcome State Fault Refusal :=
  nextEvent s

/-- `s` with the instruction of an opcode-table word where the next step finds it (log 2, log 15); a word of no format changes nothing. -/
def State.withFetchWord (s : State) (nbits w : Nat) : State :=
  match tableWord nbits w with
  | some iw => placeWord iw s
  | none => s

end Sys2Proof.Machine
end

