-- ==== Sys2Proof/Safety.lean ====
section
/-! DEFINITION. What claims are stated in: the invariants of 10_state.md rules R57 and R61, well-formed trees (00_scope.md rule R18), paths and their values (rule R12), and the packed bitstream (30_encoding.md rule R112). -/

namespace Sys2Proof.Machine

/-! ## Trees -/

/-- The node reached from node `i` by following `bits`, first bit first, through Internal words; `none` where a Leaf is met with bits left (44_unpack.md rule R228). -/
def walk (rd : NodeIdx → NodeWord) : NodeIdx → List Bool → Option NodeIdx
  | i, [] => some i
  | i, b :: bits => if isInternal (rd i) then walk rd (childOf b (rd i)) bits else none

/-- `p` leads from `root` to a Leaf with symbol `sym`. -/
def leadsTo (rd : NodeIdx → NodeWord) (root : NodeIdx) (p : List Bool) (sym : Sym) : Prop :=
  ∃ i, walk rd root p = some i ∧ isInternal (rd i) = false ∧ symOf (rd i) = sym

/-- `WF(TM, ROOT)` (00_scope.md rule R18). -/
structure TreeWf (rd : NodeIdx → NodeWord) (root : NodeIdx) : Prop where
  /-- (a) No node index is reached by two different paths. -/
  onePath : ∀ p q i, walk rd root p = some i → walk rd root q = some i → p = q
  /-- (b) Every path ends in a Leaf after at most 255 edges. -/
  bounded : ∀ p i, walk rd root p = some i → p.length ≤ 255 ∧ (p.length = 255 → isInternal (rd i) = false)
  /-- (c) No two reachable Leaf words carry one symbol. -/
  oneLeaf : ∀ p q i j, walk rd root p = some i → walk rd root q = some j →
    isInternal (rd i) = false → isInternal (rd j) = false → symOf (rd i) = symOf (rd j) → i = j

/-- The value of a path as a code's field (rules R12 and R110). -/
def pathValue (p : List Bool) : CodeVal := p.foldl appendPath 0#255

/-- `val(c)` of rule R12, as a number: the first bit is the most significant. -/
def pathNat (p : List Bool) : Nat := p.foldl (fun n b => 2 * n + b.toNat) 0

/-- The code of a path: its length and its value. -/
def codeOfPath (p : List Bool) : Code := { len := BitVec.ofNat 8 p.length, value := pathValue p }

/-! ## The bitstream -/

/-- The byte whose bits, most significant first, are `bits` (20_memory.md rule R75); eight bits. -/
def byteOfBits (bits : List Bool) : Byte :=
  bits.foldl (fun a b => (a <<< 1) ||| (BitVec.ofBool b).setWidth 8) 0#8

/-- The bits of a byte, most significant first (rule R75). -/
def bitsOfByte (b : Byte) : List Bool := (List.range 8).map (fun k => b.getLsbD (7 - k))

/-- A bit string cut into bytes, its last byte padded with zeros (30_encoding.md rule R112). -/
def packed : List Bool → List Byte
  | [] => []
  | b7 :: b6 :: b5 :: b4 :: b3 :: b2 :: b1 :: b0 :: rest =>
    byteOfBits [b7, b6, b5, b4, b3, b2, b1, b0] :: packed rest
  | short => [byteOfBits (short ++ List.replicate (8 - short.length) false)]

/-- The code bits of a symbol under the valid table. -/
def symBits (s : State) (sym : Sym) : List Bool :=
  codeBits (lookup s sym).len (lookup s sym).code

/-- The bit string of a symbol sequence, no separators (rule R112). -/
def bitString (s : State) (syms : List Sym) : List Bool := syms.flatMap (symBits s)

/-! ## Running -/

/-- `k` steps, stopping at the first that gives no next state. -/
def runSteps (k : Nat) (s : State) : Host.Outcome State Fault Refusal :=
  match k with
  | 0 => .next s
  | k + 1 =>
    match step s with
    | .next t => runSteps k t
    | .fault r => .fault r
    | .refused r => .refused r

/-! ## The next event -/

/-- The next event is a write of `w` to CMD, in either spelling (log 15): the command word, or the tuple (1, 0) of the register port. -/
def writesCmd (s : State) (w : Word) : Prop :=
  ∃ rest, s.env.events = .command w :: rest ∨ s.env.events = .access 0b100000#6 w :: rest

/-- The next event is a reset event: an edge with `rst` = 1, or SRST (70_reset_and_hazards.md rule R280). -/
def resetsNext (s : State) : Prop :=
  (∃ rest, s.env.events = .reset :: rest) ∨ writesCmd s 0x00000005#32

/-- The next event is a register access of the host, or a write to CMD. -/
def accessesNext (s : State) : Prop :=
  ∃ rest, (∃ w, s.env.events = .command w :: rest) ∨ ∃ tuple v, s.env.events = .access tuple v :: rest

/-! ## Reset -/

/-- `t` holds the values of 10_state.md rule R60. -/
structure ResetValues (t : State) : Prop where
  phase : t.phase = .idle
  done : t.done = false
  lutValid : t.lutValid = false
  err : t.err = .none
  penderr : t.penderr = .none
  ie : t.ie = false
  root : t.root = 0#9
  nsym : t.nsym = 0#32
  cnt : t.cnt = 0#32
  tmAddr : t.tmAddr = 0#9
  lutSym : t.lutSym = 0#8
  acc : t.acc = 0#8
  fill : t.fill = 0#3
  cur : t.cur = 0#9
  depth : t.depth = 0#8
  shreg : t.shreg = 0#8
  bitsLeft : t.bitsLeft = 0#4
  gen : t.gen = .fresh
  oq : t.oq = []

/-! ## The invariant of 10_state.md rule R61 -/

/-- The errors an operation can end with (60_exceptions.md rule R242). -/
def mayRaise : Op → ErrCode → Bool
  | .gen, .none | .gen, .treeDepth | .gen, .dupSym => true
  | .pack, .none | .pack, .noLut | .pack, .noCode | .pack, .underrun => true
  | .unpack, .none | .unpack, .truncated | .unpack, .treeDepth => true
  | _, _ => false

/-- The operation running or draining, if any. -/
def runningOp : Phase → Option Op
  | .idle => none
  | .gen => some .gen
  | .pack => some .pack
  | .unpack => some .unpack
  | .drain op => some op

/-- GEN's pending nodes below the next one: path lengths strictly falling, none 0, none longer than the next node's (42_code_lut.md rule R182). -/
def stackOk : List GenItem → Prop
  | [] => True
  | it :: rest =>
    rest.Pairwise (fun a b => b.len.toNat < a.len.toNat) ∧
      ∀ r ∈ rest, 0 < r.len.toNat ∧ r.len.toNat ≤ it.len.toNat

/-- The invariant of rule R61 (a) to (h), with the canonical form of the memories (log 3, log 4) and of GEN's storage (log 8). -/
structure StateInv (s : State) : Prop where
  /-- (b) DONE = 1 implies PHASE = IDLE. -/
  doneIdle : s.done = true → s.phase = .idle
  /-- (c) ERR not 0 implies DONE = 1. -/
  errDone : s.err ≠ .none → s.done = true
  /-- (d) PHASE = IDLE implies OQ empty. -/
  idleOq : s.phase = .idle → s.oq = []
  /-- OQ is empty all through GEN (R166). -/
  genOq : runningOp s.phase = some .gen → s.oq = []
  /-- (e) ACC[7-FILL:0] = 0. -/
  accLow : s.acc <<< s.fill.toNat = 0#8
  /-- (f) BITS_LEFT is 0 to 8. -/
  bitsLe : s.bitsLeft.toNat ≤ 8
  /-- (h) CNT is at most NSYM in PACK and UNPACK and in DRAIN after them. -/
  cntLe : runningOp s.phase = some .pack ∨ runningOp s.phase = some .unpack → s.cnt.toNat ≤ s.nsym.toNat
  /-- CNT is 0 before GEN's first statement (R164). -/
  genCntFresh : s.phase = .gen → s.gen = .fresh → s.cnt = 0#32
  /-- From then on, and in DRAIN after GEN, CNT counts the entries written (R36). -/
  genCnt : runningOp s.phase = some .gen → (s.phase = .gen → s.gen ≠ .fresh) → s.cnt.toNat = s.lut.length
  /-- LUT_VALID = 0 during GEN (R164, R166). -/
  genInvalid : runningOp s.phase = some .gen → s.lutValid = false
  /-- The error waiting in DRAIN is one its operation can raise (R242). -/
  drainErr : ∀ op, s.phase = .drain op → mayRaise op s.penderr = true
  /-- GEN's storage does not outlive GEN (R54). -/
  workFresh : s.phase ≠ .gen → s.gen = .fresh
  /-- GEN's stack (R182). -/
  workStack : ∀ st, s.gen = .visiting st → stackOk st
  /-- TM is in its canonical form. -/
  tmWf : Memory.wf s.tm = true
  /-- LUT is in its canonical form. -/
  lutWf : CodeTable.wf s.lut = true

/-! ## The invariant of the code table, 10_state.md rule R57 -/

/-- The table holds exactly the codes of the tree, and no path is longer than 255 (rule R57). -/
structure TableOf (rd : NodeIdx → NodeWord) (root : NodeIdx) (t : CodeTable) : Prop where
  bounded : ∀ p i, walk rd root p = some i → p.length ≤ 255
  complete : ∀ p sym, leadsTo rd root p sym → cellGet t sym.toNat = some (codeOfPath p)
  sound : ∀ (sym : Sym) c, cellGet t sym.toNat = some c → ∃ p, leadsTo rd root p sym ∧ c = codeOfPath p

/-- A pending node of GEN is reached by a path whose value and length it carries. -/
def ItemAt (rd : NodeIdx → NodeWord) (root : NodeIdx) (p : List Bool) (it : GenItem) : Prop :=
  walk rd root p = some it.node ∧ p.length ≤ 255 ∧ it.path = pathValue p ∧ it.len.toNat = p.length

/-- What the table and the stack say together while GEN visits: every path passes through a pending node, or is at most 255 long with its Leaf recorded. -/
structure Visiting (rd : NodeIdx → NodeWord) (root : NodeIdx) (stack : List GenItem) (t : CodeTable) : Prop where
  items : ∀ it ∈ stack, ∃ p, ItemAt rd root p it
  covered : ∀ p i, walk rd root p = some i →
    (∃ it ∈ stack, ∃ pre post, p = pre ++ post ∧ ItemAt rd root pre it) ∨
      (p.length ≤ 255 ∧ (isInternal (rd i) = false → cellGet t (symOf (rd i)).toNat = some (codeOfPath p)))
  sound : ∀ (sym : Sym) c, cellGet t sym.toNat = some c → ∃ p, leadsTo rd root p sym ∧ c = codeOfPath p

/-- The invariant of rule R57, inductive over steps: a valid table is the tree's table, and GEN is on its way to it. -/
structure TableInv (s : State) : Prop where
  valid : s.lutValid = true → TableOf (memRead s) s.root s.lut
  visiting : s.phase = .gen → ∀ st, s.gen = .visiting st → Visiting (memRead s) s.root st s.lut
  drained : s.phase = .drain .gen → s.penderr = .none → TableOf (memRead s) s.root s.lut

end Sys2Proof.Machine
end

