-- ==== Sys2Proof/Certificates/Slice0/Obligations.lean ====
section
/-! DEFINITION. The statements for the provers. Each cites the rule of spec/ it formalises. -/

open Sys2Proof Sys2Proof.Machine

/-! ## Reset and the invariants -/

/-- R60: the state after reset, as held and as read. -/
def Obligations.ResetStateHoldsTheStatedValues : Prop :=
  ResetValues State.reset ∧ irq State.reset = false ∧ outValid State.reset = false ∧ inReady State.reset = false ∧
    readReg .cmd State.reset = 0#32 ∧ readReg .status State.reset = 0#32 ∧ readReg .lutLen State.reset = 0#32 ∧
    (∀ k, readReg (.lutBits k) State.reset = 0#32) ∧
    readReg .tmData State.reset = (memRead State.reset 0#9).setWidth 32

/-- R280, R282, R161: the reset event, an edge with rst = 1 or SRST, in any state, whatever was running.
The model's own: the event taken from the list (log 1), `freeReads` kept (log 5), `env.rdata` (log 6) and the rest of the world kept (log 19), GEN's storage fresh (log 8). -/
def Obligations.ResetEventClearsAllButTheMemories : Prop :=
  decode (.cmd 0x00000005#32) = .ok .srst ∧
  (∀ s, ∃ t, exec .srst s = .next t ∧ ResetValues t ∧ t.tm = s.tm ∧ t.lut = s.lut ∧ irq t = false ∧
    outValid t = false ∧ inReady t = false ∧ statusWord t = 0#32 ∧ (∀ sym, lookup t sym = ⟨false, 0#8, 0#255⟩) ∧
    t.env = s.env ∧ t.freeReads = s.freeReads) ∧
  (∀ s rest, s.env.events = .reset :: rest → step s = exec .srst (setEvents rest s))

/-- R61 (a) to (h): every step keeps the invariant, from every state that has it. -/
def Obligations.EveryStepKeepsTheStateInvariant : Prop :=
  ∀ s t, StateInv s → step s = .next t → StateInv t

/-- The state after reset has both invariants. -/
def Obligations.ResetHasBothInvariants : Prop :=
  StateInv State.reset ∧ TableInv State.reset

/-- R57: every step keeps the code table's invariant. -/
def Obligations.EveryStepKeepsTheTableInvariant : Prop :=
  ∀ s t, StateInv s → TableInv s → step s = .next t → TableInv t

/-- R57: a valid table comes with a well-formed tree, and holds exactly the codes of its leaves. -/
def Obligations.ValidTableIsTheTreesCodes : Prop :=
  ∀ s, TableInv s → s.lutValid = true →
    TreeWf (memRead s) s.root ∧
    (∀ p sym, leadsTo (memRead s) s.root p sym →
      lookup s sym = ⟨true, BitVec.ofNat 8 p.length, pathValue p⟩) ∧
    (∀ sym, (¬ ∃ p, leadsTo (memRead s) s.root p sym) → (lookup s sym).v = false)

/-- R187: the codes of a valid table form a prefix code. -/
def Obligations.ValidCodesAreAPrefixCode : Prop :=
  ∀ s, TableInv s → s.lutValid = true → ∀ x y, x ≠ y → (lookup s x).v = true → (lookup s y).v = true →
    ¬ (symBits s x) <+: (symBits s y)

/-- R182: GEN's stack never holds more than 255 pending nodes. -/
def Obligations.GenStackHoldsAtMost255Pending : Prop :=
  ∀ s it rest, StateInv s → s.gen = .visiting (it :: rest) → rest.length ≤ 255

/-- R36: CNT never exceeds NSYM in PACK and UNPACK and never exceeds 256 in GEN. -/
def Obligations.CntNeverExceedsItsBound : Prop :=
  ∀ s, StateInv s →
    ((runningOp s.phase = some .pack ∨ runningOp s.phase = some .unpack) → s.cnt.toNat ≤ s.nsym.toNat) ∧
    (runningOp s.phase = some .gen → s.cnt.toNat ≤ 256)

/-! ## Encoding -/

/-- Decoding undoes encoding, for every well-formed instruction and every operand. -/
def Obligations.DecodeOfEncodeIsTheInstruction : Prop :=
  ∀ i : Instr, i.wf = true → decode (encode i) = .ok i

/-- A decoded word is the encoding of what it decodes to, and what it decodes to is well formed; a read's data word is not looked at. -/
def Obligations.EncodeOfDecodeIsTheWord : Prop :=
  (∀ w i, decode w = .ok i → i.wf = true) ∧
  (∀ w i, decode (.cmd w) = .ok i → encode i = .cmd w) ∧
  (∀ w i, decode (.node w) = .ok i → encode i = .node w) ∧
  (∀ tuple v i, decode (.port tuple v) = .ok i →
    encode i = .port tuple (if tuple.getLsbD 5 then v else 0#32))

/-- R101, R103: all 32 bits take part; the six words, and every other one is illegal. -/
def Obligations.ExactlySixCommandWords : Prop :=
  (∀ w c, decodeCommand w = some c ↔
    w = (match c with
      | .nop => 0x00000000#32 | .gen => 0x00000001#32 | .pack => 0x00000002#32
      | .unpack => 0x00000003#32 | .clr => 0x00000004#32 | .srst => 0x00000005#32)) ∧
  (∀ w : Word, decode (.cmd w) = .error (.illegalCommand w) ↔ 6 ≤ w.toNat)

/-- R104 to R107: every 19-bit value is a node word; its kind is bit 18; a Leaf's bits 17:8 do not matter to the engine. -/
def Obligations.EveryNodeWordDecodes : Prop :=
  (∀ w : NodeWord, decode (.node w) =
    .ok (if isInternal w then .nodeInternal (lowOf w) (highOf w) else .nodeLeaf (w.extractLsb' 8 10) (symOf w))) ∧
  (∀ sym : Sym, isInternal (sym.setWidth 19) = false ∧ symOf (sym.setWidth 19) = sym) ∧
  (∀ l h : NodeIdx,
    let w : NodeWord := BitVec.ofNat 19 (0x40000 + 512 * l.toNat + h.toNat)
    isInternal w = true ∧ lowOf w = l ∧ highOf w = h) ∧
  (∀ x y sym s, exec (.nodeLeaf x sym) s = exec (.nodeLeaf y sym) s)

/-- A few words written out bit by bit. -/
def Obligations.WrittenOutWordsDecode : Prop :=
  decode (.cmd 0b00000000000000000000000000000010#32) = .ok .pack ∧
  decode (.cmd 0b00000000000000000000000000010010#32) = .error (.illegalCommand 0x12#32) ∧
  decode (.port 0b000001#6 0#32) = .ok (.regrd .status) ∧
  decode (.port 0b100111#6 0x40604#32) = .ok (.regwr .tmData 0x40604#32) ∧
  decode (.node 0b0000000000001000001#19) = .ok (.nodeLeaf 0#10 0x41#8) ∧
  decode (.node 0b1000000011000000100#19) = .ok (.nodeInternal 3#9 4#9)

/-! ## A step runs the decoded instruction -/

/-- A step whose next event presents a word runs exactly the instruction the word decodes to, the event being taken from the list; and the engine's turn runs the node word it fetches. -/
def Obligations.StepRunsTheDecodedInstruction : Prop :=
  (∀ s w rest i, s.env.events = .command w :: rest → decode (.cmd w) = .ok i →
    step s = exec i (setEvents rest s)) ∧
  (∀ s tuple v rest i, s.env.events = .access tuple v :: rest → decode (.port tuple v) = .ok i →
    step s = exec i (setEvents rest s)) ∧
  (∀ s rest i, s.env.events = .engine :: rest → s.phase = .unpack → s.cnt ≠ s.nsym →
    decode (.node (memRead s s.cur)) = .ok i → step s = exec i (setEvents rest s)) ∧
  (∀ s rest it st i, s.env.events = .engine :: rest → s.phase = .gen → s.gen = .visiting (it :: st) →
    decode (.node (memRead s it.node)) = .ok i → step s = exec i (setEvents rest s))

/-- R130, R146, R242: no instruction faults or is refused, in any state. -/
def Obligations.EveryInstructionAnswersANextState : Prop :=
  ∀ i s, ∃ t, exec i s = .next t

/-! ## Commands -/

/-- R162: NOP, CMD word 0, accepted when idle, changes nothing. -/
def Obligations.NopChangesNothing : Prop :=
  decode (.cmd 0x00000000#32) = .ok .nop ∧ ∀ s, s.phase = .idle → exec .nop s = .next s

/-- R163: CLR, CMD word 4, clears DONE and ERR and nothing else; `irq` falls with DONE. -/
def Obligations.ClrClearsDoneAndErrOnly : Prop :=
  decode (.cmd 0x00000004#32) = .ok .clr ∧
  (∀ s, s.phase = .idle → exec .clr s = .next { s with done := false, err := .none }) ∧
  (∀ s t, s.phase = .idle → exec .clr s = .next t → irq t = false) ∧
  (∀ s, s.phase ≠ .idle → exec .clr s = .next s)

/-- R164: the acceptance of GEN, PACK and UNPACK, one step; BUSY is then 1. -/
def Obligations.AcceptanceStartsTheOperation : Prop :=
  (∀ s, s.phase = .idle → exec .gen s = .next { s with
    done := false, err := .none, penderr := .none, cnt := 0#32, phase := .gen, lutValid := false, gen := .fresh }) ∧
  (∀ s, s.phase = .idle → exec .pack s = .next { s with
    done := false, err := .none, penderr := .none, cnt := 0#32, phase := .pack, acc := 0#8, fill := 0#3 }) ∧
  (∀ s, s.phase = .idle → exec .unpack s = .next { s with
    done := false, err := .none, penderr := .none, cnt := 0#32, phase := .unpack
    cur := s.root, depth := 0#8, shreg := 0#8, bitsLeft := 0#4 }) ∧
  (∀ i ∈ [Instr.gen, .pack, .unpack], ∀ s t, s.phase = .idle → exec i s = .next t → busy t = true)

/-- R165: an illegal word sets ERR = 1 and DONE = 1 while idle and is dropped while busy, as a command and as a write to register 0. -/
def Obligations.IllegalCommandPostsErrorOne : Prop :=
  ∀ w : Word, 6 ≤ w.toNat →
    (∀ s rest, s.env.events = .command w :: rest → s.phase = .idle →
      step s = .next { setEvents rest s with err := .illegalCmd, done := true }) ∧
    (∀ s rest, s.env.events = .command w :: rest → s.phase ≠ .idle → step s = .next (setEvents rest s)) ∧
    (∀ s, s.phase = .idle → ∃ t, exec (.regwr .cmd w) s = .next t ∧ t = { s with err := .illegalCmd, done := true } ∧
      irq t = s.ie) ∧
    (∀ s, s.phase ≠ .idle → exec (.regwr .cmd w) s = .next s) ∧
    ErrCode.code .illegalCmd = 1#4

/-- R131: while busy every write is dropped, but for CMD <- 5; reads go on. -/
def Obligations.WritesWhileBusyAreDropped : Prop :=
  ∀ s, s.phase ≠ .idle →
    (∀ r v, ¬ (r = .cmd ∧ v = 0x00000005#32) → exec (.regwr r v) s = .next s) ∧
    (∀ i ∈ [Instr.nop, .gen, .pack, .unpack, .clr], exec i s = .next s) ∧
    exec (.regwr .cmd 0x00000005#32) s = .next (resetEvent s)

/-! ## Registers -/

/-- R133, R160: CMD reads 0 and stores nothing; a write of a command's word is that command, idle or busy, and any other word is an illegal command. -/
def Obligations.RegisterCmd : Prop :=
  Reg.ofNumber 0#5 = .cmd ∧
  (∀ s, exec (.regrd .cmd) s = .next { s with env := { s.env with rdata := 0#32 } }) ∧
  (∀ w c s, decodeCommand w = some c → exec (.regwr .cmd w) s = exec (.ofCommand c) s) ∧
  (∀ w s, decodeCommand w = none → s.phase = .idle →
    exec (.regwr .cmd w) s = .next { s with err := .illegalCmd, done := true }) ∧
  (∀ w s, s.phase ≠ .idle → w ≠ 0x00000005#32 → exec (.regwr .cmd w) s = .next s)

/-- R134: STATUS reads ERR * 16 + LUT_VALID * 4 + DONE * 2 + BUSY; a write is dropped in every state. -/
def Obligations.RegisterStatus : Prop :=
  Reg.ofNumber 1#5 = .status ∧
  (∀ s, ∃ v : Word, exec (.regrd .status) s = .next { s with env := { s.env with rdata := v } } ∧
    v.toNat = s.err.code.toNat * 16 + s.lutValid.toNat * 4 + s.done.toNat * 2 + (busy s).toNat) ∧
  (∀ s v, exec (.regwr .status v) s = .next s) ∧
  (∀ s, StateInv s → ¬ (busy s = true ∧ s.done = true) ∧ (s.err ≠ .none → s.done = true))

/-- R135: IRQEN. -/
def Obligations.RegisterIrqen : Prop :=
  Reg.ofNumber 2#5 = .irqen ∧
  (∀ s, ∃ v : Word, exec (.regrd .irqen) s = .next { s with env := { s.env with rdata := v } } ∧ v.toNat = s.ie.toNat) ∧
  (∀ s v, s.phase = .idle → ∃ t, exec (.regwr .irqen v) s = .next t ∧ t = { s with ie := v.getLsbD 0 } ∧
    irq t = (v.getLsbD 0 && s.done)) ∧
  (∀ s v, s.phase ≠ .idle → exec (.regwr .irqen v) s = .next s)

/-- R136: NSYM. -/
def Obligations.RegisterNsym : Prop :=
  Reg.ofNumber 4#5 = .nsym ∧
  (∀ s, exec (.regrd .nsym) s = .next { s with env := { s.env with rdata := s.nsym } }) ∧
  (∀ s v, s.phase = .idle → exec (.regwr .nsym v) s = .next { s with nsym := v }) ∧
  (∀ s v, s.phase ≠ .idle → exec (.regwr .nsym v) s = .next s)

/-- R137: ROOT; an accepted write clears LUT_VALID, whatever is written. -/
def Obligations.RegisterRoot : Prop :=
  Reg.ofNumber 3#5 = .root ∧
  (∀ s, ∃ v : Word, exec (.regrd .root) s = .next { s with env := { s.env with rdata := v } } ∧ v.toNat = s.root.toNat) ∧
  (∀ s v, s.phase = .idle → ∃ r : NodeIdx, exec (.regwr .root v) s = .next { s with root := r, lutValid := false } ∧
    r.toNat = v.toNat % 512) ∧
  (∀ s v, s.phase ≠ .idle → exec (.regwr .root v) s = .next s)

/-- R139: CNT while idle; while busy the value read is free and nothing of the block changes; a write is dropped. -/
def Obligations.RegisterCnt : Prop :=
  Reg.ofNumber 5#5 = .cnt ∧
  (∀ s, s.phase = .idle → exec (.regrd .cnt) s = .next { s with env := { s.env with rdata := s.cnt } }) ∧
  (∀ s, s.phase ≠ .idle → ∃ v n, exec (.regrd .cnt) s =
    .next { s with freeReads := n, env := { s.env with rdata := v } }) ∧
  (∀ s v, exec (.regwr .cnt v) s = .next s)

/-- R140: TM_ADDR; LUT_VALID is not touched. -/
def Obligations.RegisterTmAddr : Prop :=
  Reg.ofNumber 6#5 = .tmAddr ∧
  (∀ s, ∃ v : Word, exec (.regrd .tmAddr) s = .next { s with env := { s.env with rdata := v } } ∧ v.toNat = s.tmAddr.toNat) ∧
  (∀ s v, s.phase = .idle → ∃ a : NodeIdx, exec (.regwr .tmAddr v) s = .next { s with tmAddr := a } ∧
    a.toNat = v.toNat % 512) ∧
  (∀ s v, s.phase ≠ .idle → exec (.regwr .tmAddr v) s = .next s)

/-- R141: TM_DATA, the window onto TM at TM_ADDR: the entry reads back as written, every other entry as before, LUT_VALID falls. -/
def Obligations.RegisterTmData : Prop :=
  Reg.ofNumber 7#5 = .tmData ∧
  (∀ s, ∃ v : Word, exec (.regrd .tmData) s = .next { s with env := { s.env with rdata := v } } ∧
    v.toNat = (memRead s s.tmAddr).toNat) ∧
  (∀ s v, s.phase = .idle → ∃ m, exec (.regwr .tmData v) s = .next { s with tm := m, lutValid := false } ∧
    (memRead { s with tm := m, lutValid := false } s.tmAddr).toNat = v.toNat % 2 ^ 19 ∧
    (∀ a, a ≠ s.tmAddr → memRead { s with tm := m, lutValid := false } a = memRead s a)) ∧
  (∀ s v, s.phase ≠ .idle → exec (.regwr .tmData v) s = .next s)

/-- R142: LUT_SYM. -/
def Obligations.RegisterLutSym : Prop :=
  Reg.ofNumber 8#5 = .lutSym ∧
  (∀ s, ∃ v : Word, exec (.regrd .lutSym) s = .next { s with env := { s.env with rdata := v } } ∧ v.toNat = s.lutSym.toNat) ∧
  (∀ s v, s.phase = .idle → ∃ x : Sym, exec (.regwr .lutSym v) s = .next { s with lutSym := x } ∧ x.toNat = v.toNat % 256) ∧
  (∀ s v, s.phase ≠ .idle → exec (.regwr .lutSym v) s = .next s)

/-- R143: LUT_LEN shows V in bit 31 and LEN in bits 7:0; all 0 while LUT_VALID = 0. -/
def Obligations.RegisterLutLen : Prop :=
  Reg.ofNumber 9#5 = .lutLen ∧
  (∀ s, ∃ v : Word, exec (.regrd .lutLen) s = .next { s with env := { s.env with rdata := v } } ∧
    v.toNat = (lookup s s.lutSym).v.toNat * 2 ^ 31 + (lookup s s.lutSym).len.toNat) ∧
  (∀ s, s.lutValid = false → exec (.regrd .lutLen) s = .next { s with env := { s.env with rdata := 0#32 } }) ∧
  (∀ s v, exec (.regwr .lutLen v) s = .next s)

/-- R144: LUT_BITSk shows bits 32k+31 to 32k of the zero-extended code value. -/
def Obligations.RegisterLutBits : Prop :=
  (∀ k : BitVec 3, Reg.ofNumber (BitVec.ofNat 5 (10 + k.toNat)) = .lutBits k) ∧
  (∀ s (k : BitVec 3), ∃ v : Word, exec (.regrd (.lutBits k)) s = .next { s with env := { s.env with rdata := v } } ∧
    (∀ j, j < 32 → v.getLsbD j = (lookup s s.lutSym).code.getLsbD (32 * k.toNat + j)) ∧
    ((lookup s s.lutSym).v = false → v = 0#32) ∧ (k = 7#3 → v.getLsbD 31 = false)) ∧
  (∀ s k v, exec (.regwr (.lutBits k) v) s = .next s)

/-- R145: registers 18 to 31 read 0 and store nothing. -/
def Obligations.RegisterReserved : Prop :=
  ∀ n : BitVec 5, 18 ≤ n.toNat → Reg.ofNumber n = .reserved n ∧
    (∀ s, exec (.regrd (.reserved n)) s = .next { s with env := { s.env with rdata := 0#32 } }) ∧
    (∀ s v, exec (.regwr (.reserved n) v) s = .next s)

/-- R186: Lookup, masked while LUT_VALID = 0. That an unlisted entry is one with v = 0 is the model's (log 4). -/
def Obligations.LookupIsMasked : Prop :=
  ∀ s sym,
    (∀ c, s.lutValid = true → cellGet s.lut sym.toNat = some c → lookup s sym = ⟨true, c.len, c.value⟩) ∧
    (s.lutValid = false ∨ cellGet s.lut sym.toNat = none → lookup s sym = ⟨false, 0#8, 0#255⟩)

/-! ## Whole-machine rules -/

/-- R46: LUT_VALID is set by the completion of a GEN without error and by nothing else. -/
def Obligations.OnlyGenCompletionSetsLutValid : Prop :=
  ∀ s t, step s = .next t → s.lutValid = false → t.lutValid = true →
    s.phase = .drain .gen ∧ s.penderr = .none ∧ s.oq = [] ∧ t.phase = .idle ∧ t.done = true ∧ t.err = .none

/-- R55: TM is changed by a host write to TM_DATA while idle and by nothing else, and only at TM_ADDR. -/
def Obligations.OnlyAHostWriteChangesTm : Prop :=
  ∀ s t, step s = .next t → (∃ a, memRead t a ≠ memRead s a) →
    s.phase = .idle ∧ t.lutValid = false ∧ (∀ a, a ≠ s.tmAddr → memRead t a = memRead s a) ∧
    ∃ v rest, s.env.events = .access 0b100111#6 v :: rest

/-- R56: LUT is written by GEN and by nothing else. -/
def Obligations.OnlyGenChangesTheTable : Prop :=
  ∀ s t, step s = .next t → t.lut ≠ s.lut → s.phase = .gen

/-- R48, R167: the transitions of PHASE, and no other. An operation starts only by the write of its own command word, and only a reset event or SRST leaves a phase for IDLE without the completion step. -/
def Obligations.PhaseMovesOnlyAsStated : Prop :=
  ∀ s t, step s = .next t → t.phase = s.phase ∨
    (s.phase = .idle ∧ ((writesCmd s 0x00000001#32 ∧ t.phase = .gen) ∨ (writesCmd s 0x00000002#32 ∧ t.phase = .pack) ∨
      (writesCmd s 0x00000003#32 ∧ t.phase = .unpack))) ∨
    (s.phase = .gen ∧ t.phase = .drain .gen) ∨ (s.phase = .pack ∧ t.phase = .drain .pack) ∨
    (s.phase = .unpack ∧ t.phase = .drain .unpack) ∨
    (∃ op, s.phase = .drain op ∧ s.oq = [] ∧ t.phase = .idle ∧ t.done = true ∧ t.err = s.penderr) ∨
    (resetsNext s ∧ ResetValues t)

/-- R45: DONE rises only at a completion step or by an illegal command while idle. -/
def Obligations.DoneRisesOnlyAtCompletionOrIllegalCommand : Prop :=
  ∀ s t, step s = .next t → s.done = false → t.done = true →
    t.phase = .idle ∧ ((∃ op, s.phase = .drain op ∧ s.oq = [] ∧ t.err = s.penderr) ∨
      (s.phase = .idle ∧ t.err = .illegalCmd))

/-- R86: while the block is busy no step changes TM, ROOT, NSYM, IRQEN, TM_ADDR or LUT_SYM, unless it is a reset event.
R86, R167, R283: while it is idle the engine takes no step, and only a host access or a reset event changes them. -/
def Obligations.OperandsAreConstantWhileBusy : Prop :=
  (∀ s t, step s = .next t → s.phase ≠ .idle → (resetsNext s ∧ ResetValues t) ∨
    (t.tm = s.tm ∧ t.root = s.root ∧ t.nsym = s.nsym ∧ t.ie = s.ie ∧ t.tmAddr = s.tmAddr ∧ t.lutSym = s.lutSym)) ∧
  (∀ s, s.phase = .idle → engineStep s = .next s) ∧
  (∀ s t, step s = .next t → s.phase = .idle → ¬ accessesNext s → ¬ resetsNext s →
    t.phase = .idle ∧ t.tm = s.tm ∧ t.root = s.root ∧ t.nsym = s.nsym ∧ t.ie = s.ie ∧ t.tmAddr = s.tmAddr ∧
      t.lutSym = s.lutSym)

/-- R24: a byte leaves the source only when the engine stands inside InNext, and it is the offered one.
R24, R87, R297: the source's own moves append at its tail, set the mark or reposition it, and nothing else.
The one refusal of a step (log 12) is a source that takes back the mark it shows to a running or draining PACK or UNPACK, or the byte it offers to a running one; in IDLE and in GEN none is refused.
That a new byte clears a mark not yet shown is the model's choice (log 12); the events in a list are log 1. -/
def Obligations.EngineTakesOnlyTheByteItAskedFor : Prop :=
  (∀ s t, engineStep s = .next t → t.env.source = s.env.source ∨
    (inReady s = true ∧ ∃ b, s.env.source = b :: t.env.source)) ∧
  (∀ s b rest, s.env.events = .offer b :: rest →
    let broken := s.env.source = [] ∧ s.env.eos = true ∧
      (runningOp s.phase = some .pack ∨ runningOp s.phase = some .unpack)
    (broken → step s = .refused .sourceProtocol) ∧
    (¬ broken →
      step s = .next { s with env := { s.env with events := rest, source := s.env.source ++ [b], eos := false } })) ∧
  (∀ s rest, s.env.events = .endMark :: rest →
    step s = .next { s with env := { s.env with events := rest, eos := true } }) ∧
  (∀ s bytes eos rest, s.env.events = .reposition bytes eos :: rest →
    let broken := (s.env.source = [] ∧ s.env.eos = true ∧ ¬ (bytes = [] ∧ eos = true) ∧
        (runningOp s.phase = some .pack ∨ runningOp s.phase = some .unpack)) ∨
      (s.env.source ≠ [] ∧ bytes.head? ≠ s.env.source.head? ∧ (s.phase = .pack ∨ s.phase = .unpack))
    (broken → step s = .refused .sourceProtocol) ∧
    (¬ broken →
      step s = .next { s with env := { s.env with events := rest, source := bytes, eos := eos } })) ∧
  (∀ s r, step s = .refused r → r = .sourceProtocol ∧ ∃ rest,
    (∃ b, s.env.events = .offer b :: rest) ∨ ∃ bytes eos, s.env.events = .reposition bytes eos :: rest)

/-- R251: the block, busy, has no enabled engine step in exactly two situations; GEN never; an enabled step moves the block.
R251, R226: left to run by itself (log 1), with the mark after the offered bytes and a ready sink, PACK and UNPACK complete, from every state. -/
def Obligations.StuckInExactlyTwoSituations : Prop :=
  ∀ s, s.phase ≠ .idle →
    (engineEnabled s = false ↔
      (inReady s = true ∧ s.env.source = [] ∧ s.env.eos = false) ∨ (∃ op, s.phase = .drain op ∧ s.oq ≠ [])) ∧
    (engineEnabled s = false → engineStep s = .next s) ∧
    (engineEnabled s = true → engineStep s ≠ .next s) ∧
    (s.phase = .gen → engineEnabled s = true) ∧
    (s.phase = .pack ∨ s.phase = .unpack → s.env.events = [] → s.env.eos = true → s.env.sinkReady = true →
      ∃ k t, runSteps k s = .next t ∧ t.phase = .idle ∧ t.done = true)

/-- R166, R246: the completion step; while OQ is not empty it is not enabled. -/
def Obligations.CompletionPostsTheResult : Prop :=
  (∀ s op, s.phase = .drain op → s.oq = [] → ∃ t, engineStep s = .next t ∧
    t = { s with phase := .idle, err := s.penderr, done := true,
                 lutValid := if op = .gen ∧ s.penderr = .none then true else s.lutValid } ∧
    irq t = s.ie) ∧
  (∀ s op, s.phase = .drain op → s.oq ≠ [] → engineStep s = .next s)

/-- R25, R87: a sink transfer delivers the head of OQ and removes it, and touches nothing else. -/
def Obligations.SinkTakesTheHeadOfTheQueue : Prop :=
  ∀ s rest, s.env.events = .accept :: rest →
    (∀ b q, s.oq = b :: q → step s = .next { s with
      oq := q, env := { s.env with events := rest, delivered := s.env.delivered ++ [b] } }) ∧
    (s.oq = [] → step s = .next { s with env := { s.env with events := rest } })

/-! ## GEN -/

/-- R181: GEN visits a Leaf: its entry is recorded and counted; R183 (a): a symbol met twice ends GEN with ERR_DUPSYM. -/
def Obligations.GenVisitsALeaf : Prop :=
  ∀ s it rest x sym, s.phase = .gen → s.gen = .visiting (it :: rest) →
    (cellGet s.lut sym.toNat = none → ∃ lut, exec (.nodeLeaf x sym) s =
        .next { s with lut := lut, cnt := s.cnt + 1#32, gen := .visiting rest } ∧
      cellGet lut sym.toNat = some ⟨it.len, it.path⟩ ∧
      (∀ y : Sym, y ≠ sym → cellGet lut y.toNat = cellGet s.lut y.toNat)) ∧
    (cellGet s.lut sym.toNat ≠ none → exec (.nodeLeaf x sym) s =
      .next { s with penderr := .dupSym, phase := .drain .gen, gen := .fresh })

/-- R181, R182: GEN visits an Internal word: both children, low first, 0 and 1 appended to the path; R183 (b): at length 255 ERR_TREE_DEPTH. -/
def Obligations.GenVisitsAnInternalNode : Prop :=
  ∀ s it rest low high, s.phase = .gen → s.gen = .visiting (it :: rest) →
    (it.len ≠ 255#8 → ∃ a b : GenItem, exec (.nodeInternal low high) s = .next { s with gen := .visiting (a :: b :: rest) } ∧
      a.node = low ∧ b.node = high ∧ a.len.toNat = it.len.toNat + 1 ∧ b.len = a.len ∧
      a.path.toNat = 2 * it.path.toNat % 2 ^ 255 ∧ b.path.toNat = (2 * it.path.toNat + 1) % 2 ^ 255) ∧
    (it.len = 255#8 → exec (.nodeInternal low high) s =
      .next { s with penderr := .treeDepth, phase := .drain .gen, gen := .fresh })

/-- R109, R110: the table's code of a path is the path: its bits come back from its length and value, and the value is the path read as a number. -/
def Obligations.CodeBitsAreThePath : Prop :=
  ∀ p : List Bool, p.length ≤ 255 →
    codeBits (codeOfPath p).len (codeOfPath p).value = p ∧ (pathValue p).toNat = pathNat p

/-- R184: a GEN left to run by itself always completes, without error exactly when the tree is well formed, and only then is the table valid.
The model's own: it runs by itself with no event to come (log 1), one node a step (log 8). -/
def Obligations.GenSucceedsExactlyOnWellFormedTrees : Prop :=
  ∀ s, s.phase = .idle → s.oq = [] → s.env.events = [] →
    ∃ k t₀ t, exec .gen s = .next t₀ ∧ runSteps k t₀ = .next t ∧ t.phase = .idle ∧ t.done = true ∧
      (t.err = .none ↔ TreeWf (memRead s) s.root) ∧ t.lutValid = decide (t.err = .none) ∧
      t.tm = s.tm ∧ t.env = s.env

/-! ## PACK -/

/-- R202, R204 to R207: the ways a pass of PACK ends the operation. -/
def Obligations.PackPassEndsTheOperation : Prop :=
  ∀ s, s.phase = .pack →
    (s.cnt = 0#32 → s.nsym ≠ 0#32 → s.lutValid = false →
      engineStep s = .next { s with penderr := .noLut, phase := .drain .pack, gen := .fresh }) ∧
    (s.cnt = s.nsym → s.fill = 0#3 →
      engineStep s = .next { s with penderr := .none, phase := .drain .pack, gen := .fresh }) ∧
    (s.cnt = s.nsym → s.fill ≠ 0#3 →
      engineStep s = .next { s with
        oq := s.oq ++ [s.acc], acc := 0#8, fill := 0#3, penderr := .none, phase := .drain .pack, gen := .fresh }) ∧
    (s.cnt ≠ s.nsym → s.lutValid = true → s.env.source = [] → s.env.eos = true →
      engineStep s = .next { s with penderr := .underrun, phase := .drain .pack, gen := .fresh }) ∧
    (∀ b rest, s.cnt ≠ s.nsym → s.lutValid = true → s.env.source = b :: rest → (lookup s b).v = false →
      engineStep s = .next { s with
        penderr := .noCode, phase := .drain .pack, gen := .fresh, env := { s.env with source := rest } })

/-- R201: a pass of PACK packs one symbol: the byte leaves the source, every bit of its code is appended, CNT counts it, and nothing else changes. -/
def Obligations.PackPassPacksOneSymbol : Prop :=
  ∀ s b rest, s.phase = .pack → s.cnt ≠ s.nsym → s.env.source = b :: rest → (lookup s b).v = true →
    ∃ w, w = putBits ⟨s.acc, s.fill, []⟩ (symBits s b) ∧
      engineStep s = .next { s with
        acc := w.acc, fill := w.fill, oq := s.oq ++ w.out, cnt := s.cnt + 1#32
        env := { s.env with source := rest } }

/-- R203, R209: after T bits appended, floor(T / 8) bytes are output and T mod 8 bits held, and every bit is in its place. -/
def Obligations.AppendPlacesEveryBit : Prop :=
  ∀ (w : BitWriter) (bits : List Bool), w.acc <<< w.fill.toNat = 0#8 →
    ∃ out, (putBits w bits).out = w.out ++ out ∧
      out.length = (w.fill.toNat + bits.length) / 8 ∧
      (putBits w bits).fill.toNat = (w.fill.toNat + bits.length) % 8 ∧
      out.flatMap bitsOfByte ++ (bitsOfByte (putBits w bits).acc).take (putBits w bits).fill.toNat =
        (bitsOfByte w.acc).take w.fill.toNat ++ bits ∧
      (putBits w bits).acc <<< (putBits w bits).fill.toNat = 0#8

/-- R210: a PACK that ends without error, from its command to its completion, in closed form.
The model's own: it runs by itself, the engine before the sink (log 1), one symbol a step (log 13), which the number of steps counts. -/
def Obligations.PackDeliversThePackedBitstream : Prop :=
  ∀ s syms rest, s.phase = .idle → s.oq = [] → s.env.events = [] → s.env.sinkReady = true →
    s.lutValid = true → s.env.source = syms ++ rest → s.nsym.toNat = syms.length →
    (∀ x ∈ syms, (lookup s x).v = true) →
    ∃ t₀, exec .pack s = .next t₀ ∧
      runSteps (syms.length + 1 + (packed (bitString s syms)).length + 1) t₀ = .next { s with
        cnt := s.nsym, done := true, err := .none, penderr := .none, acc := 0#8, fill := 0#3, gen := .fresh
        env := { s.env with
          source := rest, delivered := s.env.delivered ++ packed (bitString s syms) } }

/-! ## UNPACK -/

/-- R221: a Leaf in UNPACK: its symbol is output and counted, the next walk starts at ROOT. -/
def Obligations.UnpackEmitsALeaf : Prop :=
  ∀ s x sym, s.phase = .unpack → s.cnt ≠ s.nsym →
    exec (.nodeLeaf x sym) s = .next { s with
      oq := s.oq ++ [sym], cnt := s.cnt + 1#32, cur := s.root, depth := 0#8 }

/-- R221, R222, R228: an Internal word in UNPACK consumes one bit, the most significant held, and moves to the child it selects; a byte is fetched when no bit is left. -/
def Obligations.UnpackConsumesOneBit : Prop :=
  ∀ s low high, s.phase = .unpack → s.cnt ≠ s.nsym → s.depth ≠ 255#8 →
    (s.bitsLeft ≠ 0#4 → exec (.nodeInternal low high) s = .next { s with
      cur := if s.shreg.getLsbD 7 then high else low
      shreg := s.shreg <<< 1, bitsLeft := s.bitsLeft - 1#4, depth := s.depth + 1#8 }) ∧
    (∀ b rest, s.bitsLeft = 0#4 → s.env.source = b :: rest → exec (.nodeInternal low high) s = .next { s with
      cur := if b.getLsbD 7 then high else low
      shreg := b <<< 1, bitsLeft := 7#4, depth := s.depth + 1#8, env := { s.env with source := rest } })

/-- R225, R226, R245: at depth 255 ERR_TREE_DEPTH, whatever the source shows; with no bit left at the end of the stream ERR_TRUNCATED; while the source shows nothing the engine waits. -/
def Obligations.UnpackStopsOnABadWalk : Prop :=
  ∀ s low high, s.phase = .unpack → s.cnt ≠ s.nsym →
    (s.depth = 255#8 → exec (.nodeInternal low high) s =
      .next { s with penderr := .treeDepth, phase := .drain .unpack, gen := .fresh }) ∧
    (s.depth ≠ 255#8 → s.bitsLeft = 0#4 → s.env.source = [] → s.env.eos = true →
      exec (.nodeInternal low high) s =
        .next { s with penderr := .truncated, phase := .drain .unpack, gen := .fresh }) ∧
    (s.depth ≠ 255#8 → s.bitsLeft = 0#4 → s.env.source = [] → s.env.eos = false →
      exec (.nodeInternal low high) s = .next s)

/-- Outside UNPACK and GEN the engine executes no node word: nothing changes (the model's reading, log 10). -/
def Obligations.NodeWordsDoNothingOutsideAWalk : Prop :=
  ∀ s x sym low high, (s.phase = .idle ∨ s.phase = .pack ∨ ∃ op, s.phase = .drain op) →
    exec (.nodeLeaf x sym) s = .next s ∧ exec (.nodeInternal low high) s = .next s

/-- R221: UNPACK neither reads nor writes the code table or LUT_VALID; R201: PACK neither reads nor writes ROOT or TM. -/
def Obligations.PackIgnoresTheTreeAndUnpackTheTable : Prop :=
  (∀ s t lut v, s.phase = .unpack → engineStep s = .next t →
    t.lut = s.lut ∧ t.lutValid = s.lutValid ∧
    engineStep { s with lut := lut, lutValid := v } = .next { t with lut := lut, lutValid := v }) ∧
  (∀ s t tm root, s.phase = .pack → engineStep s = .next t →
    t.tm = s.tm ∧ t.root = s.root ∧
    engineStep { s with tm := tm, root := root } = .next { t with tm := tm, root := root })

/-- R207, R227: with NSYM = 0 PACK and UNPACK are empty operations without error, whatever TM, LUT_VALID and the source hold.
The model's own: the block runs by itself with no event to come (log 1), and the count of two steps (log 13). -/
def Obligations.ZeroSymbolsIsAnEmptyOperation : Prop :=
  ∀ s, s.phase = .idle → s.oq = [] → s.env.events = [] → s.nsym = 0#32 → ∀ i ∈ [Instr.pack, .unpack],
    ∃ t₀ t, exec i s = .next t₀ ∧ runSteps 2 t₀ = .next t ∧ t.phase = .idle ∧ t.done = true ∧ t.err = .none ∧
      t.cnt = 0#32 ∧ t.lutValid = s.lutValid ∧ t.env = s.env

/-- R224: on a degenerate tree UNPACK emits the one symbol N times and reads nothing, whatever the source holds.
The model's own: it runs by itself with no event to come, the engine before the sink (log 1). -/
def Obligations.DegenerateTreeReadsNothing : Prop :=
  ∀ s, s.phase = .idle → s.oq = [] → s.env.events = [] → s.env.sinkReady = true →
    isInternal (memRead s s.root) = false →
    ∃ k t₀ t, exec .unpack s = .next t₀ ∧ runSteps k t₀ = .next t ∧ t.phase = .idle ∧ t.done = true ∧
      t.err = .none ∧ t.cnt = s.nsym ∧ t.env = { s.env with
        delivered := s.env.delivered ++ List.replicate s.nsym.toNat (symOf (memRead s s.root)) }

/-- R229: UNPACK of the packed bitstream of a symbol sequence, whatever follows it, delivers the sequence and takes exactly those bytes.
The model's own: it runs by itself with no event to come (log 1). -/
def Obligations.UnpackInvertsPack : Prop :=
  ∀ s syms rest, s.phase = .idle → s.oq = [] → s.env.events = [] → s.env.sinkReady = true →
    s.lutValid = true → TableInv s → s.nsym.toNat = syms.length → (∀ x ∈ syms, (lookup s x).v = true) →
    s.env.source = packed (bitString s syms) ++ rest →
    ∃ k t₀ t, exec .unpack s = .next t₀ ∧ runSteps k t₀ = .next t ∧ t.phase = .idle ∧ t.done = true ∧
      t.err = .none ∧ t.cnt = s.nsym ∧
      t.env = { s.env with source := rest, delivered := s.env.delivered ++ syms }
end

