-- ==== Sys2Proof/Laws/State.lean ====
section
/-! SUPPORT. What each named update does to each field of State: one lemma per field per update. -/

namespace Sys2Proof.Machine

variable (s : State)

/-! ## setEvents -/

@[simp] theorem setEvents_ie (es : List Event) : (setEvents es s).ie = s.ie := rfl
@[simp] theorem setEvents_root (es : List Event) : (setEvents es s).root = s.root := rfl
@[simp] theorem setEvents_nsym (es : List Event) : (setEvents es s).nsym = s.nsym := rfl
@[simp] theorem setEvents_cnt (es : List Event) : (setEvents es s).cnt = s.cnt := rfl
@[simp] theorem setEvents_tmAddr (es : List Event) : (setEvents es s).tmAddr = s.tmAddr := rfl
@[simp] theorem setEvents_lutSym (es : List Event) : (setEvents es s).lutSym = s.lutSym := rfl
@[simp] theorem setEvents_done (es : List Event) : (setEvents es s).done = s.done := rfl
@[simp] theorem setEvents_lutValid (es : List Event) : (setEvents es s).lutValid = s.lutValid := rfl
@[simp] theorem setEvents_err (es : List Event) : (setEvents es s).err = s.err := rfl
@[simp] theorem setEvents_phase (es : List Event) : (setEvents es s).phase = s.phase := rfl
@[simp] theorem setEvents_penderr (es : List Event) : (setEvents es s).penderr = s.penderr := rfl
@[simp] theorem setEvents_acc (es : List Event) : (setEvents es s).acc = s.acc := rfl
@[simp] theorem setEvents_fill (es : List Event) : (setEvents es s).fill = s.fill := rfl
@[simp] theorem setEvents_cur (es : List Event) : (setEvents es s).cur = s.cur := rfl
@[simp] theorem setEvents_depth (es : List Event) : (setEvents es s).depth = s.depth := rfl
@[simp] theorem setEvents_shreg (es : List Event) : (setEvents es s).shreg = s.shreg := rfl
@[simp] theorem setEvents_bitsLeft (es : List Event) : (setEvents es s).bitsLeft = s.bitsLeft := rfl
@[simp] theorem setEvents_gen (es : List Event) : (setEvents es s).gen = s.gen := rfl
@[simp] theorem setEvents_tm (es : List Event) : (setEvents es s).tm = s.tm := rfl
@[simp] theorem setEvents_lut (es : List Event) : (setEvents es s).lut = s.lut := rfl
@[simp] theorem setEvents_oq (es : List Event) : (setEvents es s).oq = s.oq := rfl
@[simp] theorem setEvents_freeReads (es : List Event) : (setEvents es s).freeReads = s.freeReads := rfl
@[simp] theorem setEvents_env (es : List Event) : (setEvents es s).env = { s.env with events := es } := rfl

/-! ## setRdata -/

@[simp] theorem setRdata_ie (v : Word) : (setRdata v s).ie = s.ie := rfl
@[simp] theorem setRdata_root (v : Word) : (setRdata v s).root = s.root := rfl
@[simp] theorem setRdata_nsym (v : Word) : (setRdata v s).nsym = s.nsym := rfl
@[simp] theorem setRdata_cnt (v : Word) : (setRdata v s).cnt = s.cnt := rfl
@[simp] theorem setRdata_tmAddr (v : Word) : (setRdata v s).tmAddr = s.tmAddr := rfl
@[simp] theorem setRdata_lutSym (v : Word) : (setRdata v s).lutSym = s.lutSym := rfl
@[simp] theorem setRdata_done (v : Word) : (setRdata v s).done = s.done := rfl
@[simp] theorem setRdata_lutValid (v : Word) : (setRdata v s).lutValid = s.lutValid := rfl
@[simp] theorem setRdata_err (v : Word) : (setRdata v s).err = s.err := rfl
@[simp] theorem setRdata_phase (v : Word) : (setRdata v s).phase = s.phase := rfl
@[simp] theorem setRdata_penderr (v : Word) : (setRdata v s).penderr = s.penderr := rfl
@[simp] theorem setRdata_acc (v : Word) : (setRdata v s).acc = s.acc := rfl
@[simp] theorem setRdata_fill (v : Word) : (setRdata v s).fill = s.fill := rfl
@[simp] theorem setRdata_cur (v : Word) : (setRdata v s).cur = s.cur := rfl
@[simp] theorem setRdata_depth (v : Word) : (setRdata v s).depth = s.depth := rfl
@[simp] theorem setRdata_shreg (v : Word) : (setRdata v s).shreg = s.shreg := rfl
@[simp] theorem setRdata_bitsLeft (v : Word) : (setRdata v s).bitsLeft = s.bitsLeft := rfl
@[simp] theorem setRdata_gen (v : Word) : (setRdata v s).gen = s.gen := rfl
@[simp] theorem setRdata_tm (v : Word) : (setRdata v s).tm = s.tm := rfl
@[simp] theorem setRdata_lut (v : Word) : (setRdata v s).lut = s.lut := rfl
@[simp] theorem setRdata_oq (v : Word) : (setRdata v s).oq = s.oq := rfl
@[simp] theorem setRdata_freeReads (v : Word) : (setRdata v s).freeReads = s.freeReads := rfl
@[simp] theorem setRdata_env (v : Word) : (setRdata v s).env = { s.env with rdata := v } := rfl

/-! ## takeByte -/

@[simp] theorem takeByte_ie : (takeByte s).ie = s.ie := rfl
@[simp] theorem takeByte_root : (takeByte s).root = s.root := rfl
@[simp] theorem takeByte_nsym : (takeByte s).nsym = s.nsym := rfl
@[simp] theorem takeByte_cnt : (takeByte s).cnt = s.cnt := rfl
@[simp] theorem takeByte_tmAddr : (takeByte s).tmAddr = s.tmAddr := rfl
@[simp] theorem takeByte_lutSym : (takeByte s).lutSym = s.lutSym := rfl
@[simp] theorem takeByte_done : (takeByte s).done = s.done := rfl
@[simp] theorem takeByte_lutValid : (takeByte s).lutValid = s.lutValid := rfl
@[simp] theorem takeByte_err : (takeByte s).err = s.err := rfl
@[simp] theorem takeByte_phase : (takeByte s).phase = s.phase := rfl
@[simp] theorem takeByte_penderr : (takeByte s).penderr = s.penderr := rfl
@[simp] theorem takeByte_acc : (takeByte s).acc = s.acc := rfl
@[simp] theorem takeByte_fill : (takeByte s).fill = s.fill := rfl
@[simp] theorem takeByte_cur : (takeByte s).cur = s.cur := rfl
@[simp] theorem takeByte_depth : (takeByte s).depth = s.depth := rfl
@[simp] theorem takeByte_shreg : (takeByte s).shreg = s.shreg := rfl
@[simp] theorem takeByte_bitsLeft : (takeByte s).bitsLeft = s.bitsLeft := rfl
@[simp] theorem takeByte_gen : (takeByte s).gen = s.gen := rfl
@[simp] theorem takeByte_tm : (takeByte s).tm = s.tm := rfl
@[simp] theorem takeByte_lut : (takeByte s).lut = s.lut := rfl
@[simp] theorem takeByte_oq : (takeByte s).oq = s.oq := rfl
@[simp] theorem takeByte_freeReads : (takeByte s).freeReads = s.freeReads := rfl
@[simp] theorem takeByte_env : (takeByte s).env = { s.env with source := s.env.source.tail } := rfl

/-! ## outPut -/

@[simp] theorem outPut_ie (b : Byte) : (outPut b s).ie = s.ie := rfl
@[simp] theorem outPut_root (b : Byte) : (outPut b s).root = s.root := rfl
@[simp] theorem outPut_nsym (b : Byte) : (outPut b s).nsym = s.nsym := rfl
@[simp] theorem outPut_cnt (b : Byte) : (outPut b s).cnt = s.cnt := rfl
@[simp] theorem outPut_tmAddr (b : Byte) : (outPut b s).tmAddr = s.tmAddr := rfl
@[simp] theorem outPut_lutSym (b : Byte) : (outPut b s).lutSym = s.lutSym := rfl
@[simp] theorem outPut_done (b : Byte) : (outPut b s).done = s.done := rfl
@[simp] theorem outPut_lutValid (b : Byte) : (outPut b s).lutValid = s.lutValid := rfl
@[simp] theorem outPut_err (b : Byte) : (outPut b s).err = s.err := rfl
@[simp] theorem outPut_phase (b : Byte) : (outPut b s).phase = s.phase := rfl
@[simp] theorem outPut_penderr (b : Byte) : (outPut b s).penderr = s.penderr := rfl
@[simp] theorem outPut_acc (b : Byte) : (outPut b s).acc = s.acc := rfl
@[simp] theorem outPut_fill (b : Byte) : (outPut b s).fill = s.fill := rfl
@[simp] theorem outPut_cur (b : Byte) : (outPut b s).cur = s.cur := rfl
@[simp] theorem outPut_depth (b : Byte) : (outPut b s).depth = s.depth := rfl
@[simp] theorem outPut_shreg (b : Byte) : (outPut b s).shreg = s.shreg := rfl
@[simp] theorem outPut_bitsLeft (b : Byte) : (outPut b s).bitsLeft = s.bitsLeft := rfl
@[simp] theorem outPut_gen (b : Byte) : (outPut b s).gen = s.gen := rfl
@[simp] theorem outPut_tm (b : Byte) : (outPut b s).tm = s.tm := rfl
@[simp] theorem outPut_lut (b : Byte) : (outPut b s).lut = s.lut := rfl
@[simp] theorem outPut_oq (b : Byte) : (outPut b s).oq = s.oq ++ [b] := rfl
@[simp] theorem outPut_freeReads (b : Byte) : (outPut b s).freeReads = s.freeReads := rfl
@[simp] theorem outPut_env (b : Byte) : (outPut b s).env = s.env := rfl

/-! ## memWrite -/

@[simp] theorem memWrite_ie (a : NodeIdx) (v : NodeWord) : (memWrite a v s).ie = s.ie := rfl
@[simp] theorem memWrite_root (a : NodeIdx) (v : NodeWord) : (memWrite a v s).root = s.root := rfl
@[simp] theorem memWrite_nsym (a : NodeIdx) (v : NodeWord) : (memWrite a v s).nsym = s.nsym := rfl
@[simp] theorem memWrite_cnt (a : NodeIdx) (v : NodeWord) : (memWrite a v s).cnt = s.cnt := rfl
@[simp] theorem memWrite_tmAddr (a : NodeIdx) (v : NodeWord) : (memWrite a v s).tmAddr = s.tmAddr := rfl
@[simp] theorem memWrite_lutSym (a : NodeIdx) (v : NodeWord) : (memWrite a v s).lutSym = s.lutSym := rfl
@[simp] theorem memWrite_done (a : NodeIdx) (v : NodeWord) : (memWrite a v s).done = s.done := rfl
@[simp] theorem memWrite_lutValid (a : NodeIdx) (v : NodeWord) : (memWrite a v s).lutValid = s.lutValid := rfl
@[simp] theorem memWrite_err (a : NodeIdx) (v : NodeWord) : (memWrite a v s).err = s.err := rfl
@[simp] theorem memWrite_phase (a : NodeIdx) (v : NodeWord) : (memWrite a v s).phase = s.phase := rfl
@[simp] theorem memWrite_penderr (a : NodeIdx) (v : NodeWord) : (memWrite a v s).penderr = s.penderr := rfl
@[simp] theorem memWrite_acc (a : NodeIdx) (v : NodeWord) : (memWrite a v s).acc = s.acc := rfl
@[simp] theorem memWrite_fill (a : NodeIdx) (v : NodeWord) : (memWrite a v s).fill = s.fill := rfl
@[simp] theorem memWrite_cur (a : NodeIdx) (v : NodeWord) : (memWrite a v s).cur = s.cur := rfl
@[simp] theorem memWrite_depth (a : NodeIdx) (v : NodeWord) : (memWrite a v s).depth = s.depth := rfl
@[simp] theorem memWrite_shreg (a : NodeIdx) (v : NodeWord) : (memWrite a v s).shreg = s.shreg := rfl
@[simp] theorem memWrite_bitsLeft (a : NodeIdx) (v : NodeWord) : (memWrite a v s).bitsLeft = s.bitsLeft := rfl
@[simp] theorem memWrite_gen (a : NodeIdx) (v : NodeWord) : (memWrite a v s).gen = s.gen := rfl
@[simp] theorem memWrite_tm (a : NodeIdx) (v : NodeWord) : (memWrite a v s).tm = cellPut s.tm a.toNat v := rfl
@[simp] theorem memWrite_lut (a : NodeIdx) (v : NodeWord) : (memWrite a v s).lut = s.lut := rfl
@[simp] theorem memWrite_oq (a : NodeIdx) (v : NodeWord) : (memWrite a v s).oq = s.oq := rfl
@[simp] theorem memWrite_freeReads (a : NodeIdx) (v : NodeWord) : (memWrite a v s).freeReads = s.freeReads := rfl
@[simp] theorem memWrite_env (a : NodeIdx) (v : NodeWord) : (memWrite a v s).env = s.env := rfl

/-! ## clearResult -/

@[simp] theorem clearResult_ie : (clearResult s).ie = s.ie := rfl
@[simp] theorem clearResult_root : (clearResult s).root = s.root := rfl
@[simp] theorem clearResult_nsym : (clearResult s).nsym = s.nsym := rfl
@[simp] theorem clearResult_cnt : (clearResult s).cnt = s.cnt := rfl
@[simp] theorem clearResult_tmAddr : (clearResult s).tmAddr = s.tmAddr := rfl
@[simp] theorem clearResult_lutSym : (clearResult s).lutSym = s.lutSym := rfl
@[simp] theorem clearResult_done : (clearResult s).done = false := rfl
@[simp] theorem clearResult_lutValid : (clearResult s).lutValid = s.lutValid := rfl
@[simp] theorem clearResult_err : (clearResult s).err = .none := rfl
@[simp] theorem clearResult_phase : (clearResult s).phase = s.phase := rfl
@[simp] theorem clearResult_penderr : (clearResult s).penderr = s.penderr := rfl
@[simp] theorem clearResult_acc : (clearResult s).acc = s.acc := rfl
@[simp] theorem clearResult_fill : (clearResult s).fill = s.fill := rfl
@[simp] theorem clearResult_cur : (clearResult s).cur = s.cur := rfl
@[simp] theorem clearResult_depth : (clearResult s).depth = s.depth := rfl
@[simp] theorem clearResult_shreg : (clearResult s).shreg = s.shreg := rfl
@[simp] theorem clearResult_bitsLeft : (clearResult s).bitsLeft = s.bitsLeft := rfl
@[simp] theorem clearResult_gen : (clearResult s).gen = s.gen := rfl
@[simp] theorem clearResult_tm : (clearResult s).tm = s.tm := rfl
@[simp] theorem clearResult_lut : (clearResult s).lut = s.lut := rfl
@[simp] theorem clearResult_oq : (clearResult s).oq = s.oq := rfl
@[simp] theorem clearResult_freeReads : (clearResult s).freeReads = s.freeReads := rfl
@[simp] theorem clearResult_env : (clearResult s).env = s.env := rfl

/-! ## clearLutValid -/

@[simp] theorem clearLutValid_ie : (clearLutValid s).ie = s.ie := rfl
@[simp] theorem clearLutValid_root : (clearLutValid s).root = s.root := rfl
@[simp] theorem clearLutValid_nsym : (clearLutValid s).nsym = s.nsym := rfl
@[simp] theorem clearLutValid_cnt : (clearLutValid s).cnt = s.cnt := rfl
@[simp] theorem clearLutValid_tmAddr : (clearLutValid s).tmAddr = s.tmAddr := rfl
@[simp] theorem clearLutValid_lutSym : (clearLutValid s).lutSym = s.lutSym := rfl
@[simp] theorem clearLutValid_done : (clearLutValid s).done = s.done := rfl
@[simp] theorem clearLutValid_lutValid : (clearLutValid s).lutValid = false := rfl
@[simp] theorem clearLutValid_err : (clearLutValid s).err = s.err := rfl
@[simp] theorem clearLutValid_phase : (clearLutValid s).phase = s.phase := rfl
@[simp] theorem clearLutValid_penderr : (clearLutValid s).penderr = s.penderr := rfl
@[simp] theorem clearLutValid_acc : (clearLutValid s).acc = s.acc := rfl
@[simp] theorem clearLutValid_fill : (clearLutValid s).fill = s.fill := rfl
@[simp] theorem clearLutValid_cur : (clearLutValid s).cur = s.cur := rfl
@[simp] theorem clearLutValid_depth : (clearLutValid s).depth = s.depth := rfl
@[simp] theorem clearLutValid_shreg : (clearLutValid s).shreg = s.shreg := rfl
@[simp] theorem clearLutValid_bitsLeft : (clearLutValid s).bitsLeft = s.bitsLeft := rfl
@[simp] theorem clearLutValid_gen : (clearLutValid s).gen = s.gen := rfl
@[simp] theorem clearLutValid_tm : (clearLutValid s).tm = s.tm := rfl
@[simp] theorem clearLutValid_lut : (clearLutValid s).lut = s.lut := rfl
@[simp] theorem clearLutValid_oq : (clearLutValid s).oq = s.oq := rfl
@[simp] theorem clearLutValid_freeReads : (clearLutValid s).freeReads = s.freeReads := rfl
@[simp] theorem clearLutValid_env : (clearLutValid s).env = s.env := rfl

/-! ## finish -/

@[simp] theorem finish_ie (op : Op) (e : ErrCode) : (finish op e s).ie = s.ie := rfl
@[simp] theorem finish_root (op : Op) (e : ErrCode) : (finish op e s).root = s.root := rfl
@[simp] theorem finish_nsym (op : Op) (e : ErrCode) : (finish op e s).nsym = s.nsym := rfl
@[simp] theorem finish_cnt (op : Op) (e : ErrCode) : (finish op e s).cnt = s.cnt := rfl
@[simp] theorem finish_tmAddr (op : Op) (e : ErrCode) : (finish op e s).tmAddr = s.tmAddr := rfl
@[simp] theorem finish_lutSym (op : Op) (e : ErrCode) : (finish op e s).lutSym = s.lutSym := rfl
@[simp] theorem finish_done (op : Op) (e : ErrCode) : (finish op e s).done = s.done := rfl
@[simp] theorem finish_lutValid (op : Op) (e : ErrCode) : (finish op e s).lutValid = s.lutValid := rfl
@[simp] theorem finish_err (op : Op) (e : ErrCode) : (finish op e s).err = s.err := rfl
@[simp] theorem finish_phase (op : Op) (e : ErrCode) : (finish op e s).phase = .drain op := rfl
@[simp] theorem finish_penderr (op : Op) (e : ErrCode) : (finish op e s).penderr = e := rfl
@[simp] theorem finish_acc (op : Op) (e : ErrCode) : (finish op e s).acc = s.acc := rfl
@[simp] theorem finish_fill (op : Op) (e : ErrCode) : (finish op e s).fill = s.fill := rfl
@[simp] theorem finish_cur (op : Op) (e : ErrCode) : (finish op e s).cur = s.cur := rfl
@[simp] theorem finish_depth (op : Op) (e : ErrCode) : (finish op e s).depth = s.depth := rfl
@[simp] theorem finish_shreg (op : Op) (e : ErrCode) : (finish op e s).shreg = s.shreg := rfl
@[simp] theorem finish_bitsLeft (op : Op) (e : ErrCode) : (finish op e s).bitsLeft = s.bitsLeft := rfl
@[simp] theorem finish_gen (op : Op) (e : ErrCode) : (finish op e s).gen = .fresh := rfl
@[simp] theorem finish_tm (op : Op) (e : ErrCode) : (finish op e s).tm = s.tm := rfl
@[simp] theorem finish_lut (op : Op) (e : ErrCode) : (finish op e s).lut = s.lut := rfl
@[simp] theorem finish_oq (op : Op) (e : ErrCode) : (finish op e s).oq = s.oq := rfl
@[simp] theorem finish_freeReads (op : Op) (e : ErrCode) : (finish op e s).freeReads = s.freeReads := rfl
@[simp] theorem finish_env (op : Op) (e : ErrCode) : (finish op e s).env = s.env := rfl

/-! ## complete -/

@[simp] theorem complete_ie (op : Op) : (complete op s).ie = s.ie := rfl
@[simp] theorem complete_root (op : Op) : (complete op s).root = s.root := rfl
@[simp] theorem complete_nsym (op : Op) : (complete op s).nsym = s.nsym := rfl
@[simp] theorem complete_cnt (op : Op) : (complete op s).cnt = s.cnt := rfl
@[simp] theorem complete_tmAddr (op : Op) : (complete op s).tmAddr = s.tmAddr := rfl
@[simp] theorem complete_lutSym (op : Op) : (complete op s).lutSym = s.lutSym := rfl
@[simp] theorem complete_done (op : Op) : (complete op s).done = true := rfl
@[simp] theorem complete_lutValid (op : Op) : (complete op s).lutValid = lutValidAfter op s := rfl
@[simp] theorem complete_err (op : Op) : (complete op s).err = s.penderr := rfl
@[simp] theorem complete_phase (op : Op) : (complete op s).phase = .idle := rfl
@[simp] theorem complete_penderr (op : Op) : (complete op s).penderr = s.penderr := rfl
@[simp] theorem complete_acc (op : Op) : (complete op s).acc = s.acc := rfl
@[simp] theorem complete_fill (op : Op) : (complete op s).fill = s.fill := rfl
@[simp] theorem complete_cur (op : Op) : (complete op s).cur = s.cur := rfl
@[simp] theorem complete_depth (op : Op) : (complete op s).depth = s.depth := rfl
@[simp] theorem complete_shreg (op : Op) : (complete op s).shreg = s.shreg := rfl
@[simp] theorem complete_bitsLeft (op : Op) : (complete op s).bitsLeft = s.bitsLeft := rfl
@[simp] theorem complete_gen (op : Op) : (complete op s).gen = s.gen := rfl
@[simp] theorem complete_tm (op : Op) : (complete op s).tm = s.tm := rfl
@[simp] theorem complete_lut (op : Op) : (complete op s).lut = s.lut := rfl
@[simp] theorem complete_oq (op : Op) : (complete op s).oq = s.oq := rfl
@[simp] theorem complete_freeReads (op : Op) : (complete op s).freeReads = s.freeReads := rfl
@[simp] theorem complete_env (op : Op) : (complete op s).env = s.env := rfl

/-! ## illegalCommand -/

@[simp] theorem illegalCommand_ie : (illegalCommand s).ie = s.ie := rfl
@[simp] theorem illegalCommand_root : (illegalCommand s).root = s.root := rfl
@[simp] theorem illegalCommand_nsym : (illegalCommand s).nsym = s.nsym := rfl
@[simp] theorem illegalCommand_cnt : (illegalCommand s).cnt = s.cnt := rfl
@[simp] theorem illegalCommand_tmAddr : (illegalCommand s).tmAddr = s.tmAddr := rfl
@[simp] theorem illegalCommand_lutSym : (illegalCommand s).lutSym = s.lutSym := rfl
@[simp] theorem illegalCommand_done : (illegalCommand s).done = true := rfl
@[simp] theorem illegalCommand_lutValid : (illegalCommand s).lutValid = s.lutValid := rfl
@[simp] theorem illegalCommand_err : (illegalCommand s).err = .illegalCmd := rfl
@[simp] theorem illegalCommand_phase : (illegalCommand s).phase = s.phase := rfl
@[simp] theorem illegalCommand_penderr : (illegalCommand s).penderr = s.penderr := rfl
@[simp] theorem illegalCommand_acc : (illegalCommand s).acc = s.acc := rfl
@[simp] theorem illegalCommand_fill : (illegalCommand s).fill = s.fill := rfl
@[simp] theorem illegalCommand_cur : (illegalCommand s).cur = s.cur := rfl
@[simp] theorem illegalCommand_depth : (illegalCommand s).depth = s.depth := rfl
@[simp] theorem illegalCommand_shreg : (illegalCommand s).shreg = s.shreg := rfl
@[simp] theorem illegalCommand_bitsLeft : (illegalCommand s).bitsLeft = s.bitsLeft := rfl
@[simp] theorem illegalCommand_gen : (illegalCommand s).gen = s.gen := rfl
@[simp] theorem illegalCommand_tm : (illegalCommand s).tm = s.tm := rfl
@[simp] theorem illegalCommand_lut : (illegalCommand s).lut = s.lut := rfl
@[simp] theorem illegalCommand_oq : (illegalCommand s).oq = s.oq := rfl
@[simp] theorem illegalCommand_freeReads : (illegalCommand s).freeReads = s.freeReads := rfl
@[simp] theorem illegalCommand_env : (illegalCommand s).env = s.env := rfl

/-! ## resetEvent -/

@[simp] theorem resetEvent_ie : (resetEvent s).ie = false := rfl
@[simp] theorem resetEvent_root : (resetEvent s).root = 0#9 := rfl
@[simp] theorem resetEvent_nsym : (resetEvent s).nsym = 0#32 := rfl
@[simp] theorem resetEvent_cnt : (resetEvent s).cnt = 0#32 := rfl
@[simp] theorem resetEvent_tmAddr : (resetEvent s).tmAddr = 0#9 := rfl
@[simp] theorem resetEvent_lutSym : (resetEvent s).lutSym = 0#8 := rfl
@[simp] theorem resetEvent_done : (resetEvent s).done = false := rfl
@[simp] theorem resetEvent_lutValid : (resetEvent s).lutValid = false := rfl
@[simp] theorem resetEvent_err : (resetEvent s).err = .none := rfl
@[simp] theorem resetEvent_phase : (resetEvent s).phase = .idle := rfl
@[simp] theorem resetEvent_penderr : (resetEvent s).penderr = .none := rfl
@[simp] theorem resetEvent_acc : (resetEvent s).acc = 0#8 := rfl
@[simp] theorem resetEvent_fill : (resetEvent s).fill = 0#3 := rfl
@[simp] theorem resetEvent_cur : (resetEvent s).cur = 0#9 := rfl
@[simp] theorem resetEvent_depth : (resetEvent s).depth = 0#8 := rfl
@[simp] theorem resetEvent_shreg : (resetEvent s).shreg = 0#8 := rfl
@[simp] theorem resetEvent_bitsLeft : (resetEvent s).bitsLeft = 0#4 := rfl
@[simp] theorem resetEvent_gen : (resetEvent s).gen = .fresh := rfl
@[simp] theorem resetEvent_tm : (resetEvent s).tm = s.tm := rfl
@[simp] theorem resetEvent_lut : (resetEvent s).lut = s.lut := rfl
@[simp] theorem resetEvent_oq : (resetEvent s).oq = [] := rfl
@[simp] theorem resetEvent_freeReads : (resetEvent s).freeReads = s.freeReads := rfl
@[simp] theorem resetEvent_env : (resetEvent s).env = s.env := rfl

/-! ## startOperation -/

@[simp] theorem startOperation_ie (p : Phase) : (startOperation p s).ie = s.ie := rfl
@[simp] theorem startOperation_root (p : Phase) : (startOperation p s).root = s.root := rfl
@[simp] theorem startOperation_nsym (p : Phase) : (startOperation p s).nsym = s.nsym := rfl
@[simp] theorem startOperation_cnt (p : Phase) : (startOperation p s).cnt = 0#32 := rfl
@[simp] theorem startOperation_tmAddr (p : Phase) : (startOperation p s).tmAddr = s.tmAddr := rfl
@[simp] theorem startOperation_lutSym (p : Phase) : (startOperation p s).lutSym = s.lutSym := rfl
@[simp] theorem startOperation_done (p : Phase) : (startOperation p s).done = false := rfl
@[simp] theorem startOperation_lutValid (p : Phase) : (startOperation p s).lutValid = s.lutValid := rfl
@[simp] theorem startOperation_err (p : Phase) : (startOperation p s).err = .none := rfl
@[simp] theorem startOperation_phase (p : Phase) : (startOperation p s).phase = p := rfl
@[simp] theorem startOperation_penderr (p : Phase) : (startOperation p s).penderr = .none := rfl
@[simp] theorem startOperation_acc (p : Phase) : (startOperation p s).acc = s.acc := rfl
@[simp] theorem startOperation_fill (p : Phase) : (startOperation p s).fill = s.fill := rfl
@[simp] theorem startOperation_cur (p : Phase) : (startOperation p s).cur = s.cur := rfl
@[simp] theorem startOperation_depth (p : Phase) : (startOperation p s).depth = s.depth := rfl
@[simp] theorem startOperation_shreg (p : Phase) : (startOperation p s).shreg = s.shreg := rfl
@[simp] theorem startOperation_bitsLeft (p : Phase) : (startOperation p s).bitsLeft = s.bitsLeft := rfl
@[simp] theorem startOperation_gen (p : Phase) : (startOperation p s).gen = s.gen := rfl
@[simp] theorem startOperation_tm (p : Phase) : (startOperation p s).tm = s.tm := rfl
@[simp] theorem startOperation_lut (p : Phase) : (startOperation p s).lut = s.lut := rfl
@[simp] theorem startOperation_oq (p : Phase) : (startOperation p s).oq = s.oq := rfl
@[simp] theorem startOperation_freeReads (p : Phase) : (startOperation p s).freeReads = s.freeReads := rfl
@[simp] theorem startOperation_env (p : Phase) : (startOperation p s).env = s.env := rfl

end Sys2Proof.Machine
end

