-- ==== Sys2Proof/Laws/Cells.lean ====
section
/-! SUPPORT. The cells of TM and LUT: read after write, the canonical form kept, equal contents are equal lists. -/

namespace Sys2Proof.Machine

variable {α : Type}

/-- A read of the entry just written gives the value written. -/
@[simp] theorem cellGet_cellPut_same (m : List (Nat × α)) (a : Nat) (v : α) :
    cellGet (cellPut m a v) a = some v := by
  induction m with
  | nil => simp [cellPut, cellGet]
  | cons x m ih =>
    obtain ⟨k, w⟩ := x
    simp only [cellPut]
    split
    · simp [cellGet]
    · split
      · simp [cellGet]
      · rename_i h; simp [cellGet, ih, Ne.symm h]

/-- A write leaves every other entry alone. -/
theorem cellGet_cellPut_other (m : List (Nat × α)) {a b : Nat} (v : α) (h : b ≠ a) :
    cellGet (cellPut m a v) b = cellGet m b := by
  induction m with
  | nil => simp [cellPut, cellGet, Ne.symm h]
  | cons x m ih =>
    obtain ⟨k, w⟩ := x
    simp only [cellPut]
    split
    · simp [cellGet, Ne.symm h]
    · split
      · rename_i hk; subst hk; simp [cellGet, Ne.symm h]
      · simp only [cellGet, ih]

theorem cellGet_cellPut (m : List (Nat × α)) (a b : Nat) (v : α) :
    cellGet (cellPut m a v) b = if b = a then some v else cellGet m b := by
  split
  · rename_i h; subst h; simp
  · rename_i h; exact cellGet_cellPut_other m v h

theorem cellsWf_iff {bound : Nat} {m : List (Nat × α)} :
    cellsWf bound m = true ↔ m.Pairwise (fun x y => x.1 < y.1) ∧ ∀ x ∈ m, x.1 < bound := by
  simp [cellsWf, List.all_eq_true]

/-- The keys of a table after a write: the key written, or a key it had. -/
theorem mem_cellPut {m : List (Nat × α)} {a : Nat} {v : α} {x : Nat × α} (h : x ∈ cellPut m a v) :
    x.1 = a ∨ x ∈ m := by
  induction m with
  | nil => simp [cellPut] at h; simp [h]
  | cons y m ih =>
    obtain ⟨k, w⟩ := y
    simp only [cellPut] at h
    split at h
    · rcases List.mem_cons.mp h with h | h
      · simp [h]
      · exact .inr h
    · split at h
      · rcases List.mem_cons.mp h with h | h
        · simp [h]
        · exact .inr (List.mem_cons_of_mem _ h)
      · rcases List.mem_cons.mp h with h | h
        · simp [h]
        · rcases ih h with h | h
          · exact .inl h
          · exact .inr (List.mem_cons_of_mem _ h)

/-- Every write keeps the canonical form. -/
theorem cellsWf_cellPut {bound : Nat} {m : List (Nat × α)} {a : Nat} (v : α)
    (hm : cellsWf bound m = true) (ha : a < bound) : cellsWf bound (cellPut m a v) = true := by
  rw [cellsWf_iff] at hm ⊢
  refine ⟨?_, fun x hx => (mem_cellPut hx).elim (fun h => h ▸ ha) (hm.2 x)⟩
  obtain ⟨hp, -⟩ := hm
  induction m with
  | nil => simp [cellPut]
  | cons y m ih =>
    obtain ⟨k, w⟩ := y
    rw [List.pairwise_cons] at hp
    simp only [cellPut]
    split
    · rename_i h
      refine List.pairwise_cons.mpr ⟨fun x hx => ?_, List.pairwise_cons.mpr hp⟩
      rcases List.mem_cons.mp hx with hx | hx
      · simpa [hx] using h
      · exact Nat.lt_trans h (hp.1 x hx)
    · split
      · rename_i h; exact List.pairwise_cons.mpr ⟨h ▸ hp.1, hp.2⟩
      · rename_i h1 h2
        refine List.pairwise_cons.mpr ⟨fun x hx => ?_, ih hp.2⟩
        rcases mem_cellPut hx with hx | hx
        · rw [hx]; exact Nat.lt_of_le_of_ne (Nat.le_of_not_lt h1) (Ne.symm h2)
        · exact hp.1 x hx

theorem Memory.wf_put {m : Memory} (a : NodeIdx) (v : NodeWord) (h : Memory.wf m = true) :
    Memory.wf (cellPut m a.toNat v) = true :=
  cellsWf_cellPut v h a.isLt

theorem CodeTable.wf_put {t : CodeTable} (sym : Sym) (c : Code) (h : CodeTable.wf t = true) :
    CodeTable.wf (cellPut t sym.toNat c) = true :=
  cellsWf_cellPut c h sym.isLt

theorem reset_memory_wf : Memory.wf State.reset.tm = true := by decide

theorem reset_table_wf : CodeTable.wf State.reset.lut = true := by decide

theorem cellGet_some_mem {m : List (Nat × α)} {a : Nat} {v : α} (h : cellGet m a = some v) : (a, v) ∈ m := by
  induction m with
  | nil => simp [cellGet] at h
  | cons x m ih =>
    obtain ⟨k, w⟩ := x
    simp only [cellGet] at h
    split at h
    · rename_i hk; simp at h; simp [← hk, ← h]
    · exact List.mem_cons_of_mem _ (ih h)

/-- A write of an unlisted entry adds one. -/
theorem cellPut_length {m : List (Nat × α)} {a : Nat} {v : α} (h : cellGet m a = none) :
    (cellPut m a v).length = m.length + 1 := by
  induction m with
  | nil => rfl
  | cons x m ih =>
    obtain ⟨k, w⟩ := x
    simp only [cellGet] at h
    split at h
    · cases h
    · rename_i hk
      simp only [cellPut]
      split
      · simp
      · rw [if_neg (Ne.symm hk)]; simp [ih h]

/-- A table in canonical form has at most `bound` entries. -/
theorem cells_length_le {bound : Nat} {m : List (Nat × α)} (h : cellsWf bound m = true) : m.length ≤ bound := by
  rw [cellsWf_iff] at h
  have := List.Nodup.length_le_card (l := m.pmap (fun x hx => (⟨x.1, hx⟩ : Fin bound)) h.2)
    (by
      rw [List.nodup_iff_pairwise_ne, List.pairwise_pmap]
      exact h.1.imp (fun hlt _ _ e => by simp at e; omega))
  simpa using this

/-- In canonical form an entry that is in the list is the one a read finds. -/
theorem cellGet_of_mem {m : List (Nat × α)} (hp : m.Pairwise (fun x y => x.1 < y.1)) {a : Nat} {v : α}
    (h : (a, v) ∈ m) : cellGet m a = some v := by
  induction m with
  | nil => cases h
  | cons x m ih =>
    obtain ⟨k, w⟩ := x
    rw [List.pairwise_cons] at hp
    rcases List.mem_cons.mp h with h | h
    · simp only [Prod.mk.injEq] at h; simp [cellGet, h.1, h.2]
    · have : k < a := hp.1 _ h
      simp [cellGet, Nat.ne_of_lt this, ih hp.2 h]

/-- Equal contents are equal data: two tables in canonical form that answer every read alike are one list. -/
theorem cells_ext {m n : List (Nat × α)} (hm : m.Pairwise (fun x y => x.1 < y.1))
    (hn : n.Pairwise (fun x y => x.1 < y.1)) (h : ∀ a, cellGet m a = cellGet n a) : m = n := by
  have key : ∀ {u w : List (Nat × α)}, u.Pairwise (fun x y => x.1 < y.1) → (∀ a, cellGet u a = cellGet w a) →
      ∀ x ∈ u, x ∈ w := fun hu h x hx => cellGet_some_mem ((h x.1).symm.trans (cellGet_of_mem hu hx))
  induction m generalizing n with
  | nil =>
    cases n with
    | nil => rfl
    | cons y n => exact absurd (key hn (fun a => (h a).symm) y List.mem_cons_self) (by simp)
  | cons x m ih =>
    cases n with
    | nil => exact absurd (key hm h x List.mem_cons_self) (by simp)
    | cons y n =>
      have hxy : x = y := by
        rcases List.mem_cons.mp (key hm h x List.mem_cons_self) with e | hx
        · exact e
        · rcases List.mem_cons.mp (key hn (fun a => (h a).symm) y List.mem_cons_self) with e | hy
          · exact e.symm
          · exact absurd (Nat.lt_trans ((List.pairwise_cons.mp hn).1 x hx) ((List.pairwise_cons.mp hm).1 y hy)) (Nat.lt_irrefl _)
      subst hxy
      rw [List.pairwise_cons] at hm hn
      refine congrArg _ (ih hm.2 hn.2 fun a => ?_)
      have ha := h a
      simp only [cellGet] at ha
      split at ha
      · rename_i hk
        have nil_of : ∀ {u : List (Nat × α)}, (∀ z ∈ u, x.1 < z.1) → cellGet u a = none := fun {u} hu => by
          cases hc : cellGet u a with
          | none => rfl
          | some v => exact absurd (hu _ (cellGet_some_mem hc)) (by simp [hk])
        rw [nil_of hm.1, nil_of hn.1]
      · exact ha

end Sys2Proof.Machine
end

