-- ==== Sys2Proof/Laws/Ops.lean ====
section
/-! SUPPORT. One lemma per shared operation: what it can do, said once. -/

namespace Sys2Proof.Machine

/-! ## Flags -/

theorem busy_eq_false_iff {s : State} : busy s = false ↔ s.phase = .idle := by
  unfold busy; cases s.phase <;> simp

theorem busy_eq_true_iff {s : State} : busy s = true ↔ s.phase ≠ .idle := by
  unfold busy; cases s.phase <;> simp

@[simp] theorem busy_setEvents (es : List Event) (s : State) : busy (setEvents es s) = busy s := rfl

@[simp] theorem setEvents_self (s : State) : setEvents s.env.events s = s := rfl

theorem lutValidAfter_true {op : Op} {s : State} (h : lutValidAfter op s = true) :
    (op = .gen ∧ s.penderr = .none) ∨ s.lutValid = true := by
  revert h; unfold lutValidAfter; split
  · rename_i h; intro; exact .inl ⟨rfl, h⟩
  · exact .inr

/-! ## Acceptance -/

theorem whenIdle_idle {f : State → State} {s : State} (h : s.phase = .idle) : whenIdle f s = f s := by
  simp [whenIdle, busy_eq_false_iff.mpr h]

theorem whenIdle_busy {f : State → State} {s : State} (h : s.phase ≠ .idle) : whenIdle f s = s := by
  simp [whenIdle, busy_eq_true_iff.mpr h]

theorem writeAccepted_idle {r : Reg} {v : Word} {s : State} (h : s.phase = .idle) : writeAccepted r v s = true := by
  simp [writeAccepted, busy_eq_false_iff.mpr h]

theorem writeAccepted_iff {r : Reg} {v : Word} {s : State} :
    writeAccepted r v s = true ↔ s.phase = .idle ∨ (r = .cmd ∧ v = 0x00000005#32) := by
  simp [writeAccepted, busy_eq_false_iff]

/-- An accepted write to CMD is SRST, or the block is idle and the command is performed. -/
theorem writeReg_cmd {v : Word} {s : State} :
    writeReg .cmd v s = performCommand (decodeCommand v) s := rfl

/-! ## Reads -/

/-- A read changes nothing but the counter of free values. -/
theorem afterRead_eq (r : Reg) (s : State) : ∃ n, afterRead r s = { s with freeReads := n } := by
  unfold afterRead; split
  · split
    · exact ⟨_, rfl⟩
    · exact ⟨s.freeReads, rfl⟩
  · exact ⟨s.freeReads, rfl⟩

/-- What a read of TM depends on. -/
theorem memRead_congr {s t : State} (h : t.tm = s.tm) : memRead t = memRead s := by
  funext a; simp [memRead, h]

theorem memRead_memWrite (s : State) (a b : NodeIdx) (v : NodeWord) :
    memRead (memWrite a v s) b = if b = a then v else memRead s b := by
  unfold memRead
  rw [memWrite_tm, cellGet_cellPut]
  by_cases h : b = a
  · simp [h]
  · simp [h, BitVec.toNat_inj]

/-! ## Streams -/

theorem inNext_byte {s : State} {b : Byte} :
    inNext s = .byte b ↔ ∃ rest, s.env.source = b :: rest := by
  unfold inNext
  cases s.env.source
  · cases s.env.eos <;> simp
  · simp

theorem inNext_eos {s : State} : inNext s = .eos ↔ s.env.source = [] ∧ s.env.eos = true := by
  unfold inNext; cases s.env.source <;> simp

theorem inNext_nothing {s : State} : inNext s = .nothing ↔ s.env.source = [] ∧ s.env.eos = false := by
  unfold inNext; cases s.env.source <;> simp

/-- A sink transfer does nothing, or delivers the head of OQ. -/
theorem sinkTransfer_cases (s : State) :
    (s.oq = [] ∧ sinkTransfer s = s) ∨
    (∃ b rest, s.oq = b :: rest ∧
      sinkTransfer s = { s with oq := rest, env := { s.env with delivered := s.env.delivered ++ [b] } }) := by
  unfold sinkTransfer; cases h : s.oq with
  | nil => exact .inl ⟨rfl, rfl⟩
  | cons b rest => exact .inr ⟨b, rest, rfl, rfl⟩

/-- When the source is bound to what it shows. -/
theorem sourceBound_iff {s : State} : sourceBound s = true ↔
    (s.env.source = [] ∧ s.env.eos = true ∧
      (s.phase = .pack ∨ s.phase = .unpack ∨ s.phase = .drain .pack ∨ s.phase = .drain .unpack)) ∨
    (s.env.source ≠ [] ∧ (s.phase = .pack ∨ s.phase = .unpack)) := by
  unfold sourceBound inNext
  cases s.env.source with
  | nil => cases s.env.eos <;> rcases hp : s.phase with _ | _ | _ | _ | (_ | _ | _) <;> simp
  | cons b rest => rcases hp : s.phase with _ | _ | _ | _ | (_ | _ | _) <;> simp

/-- A move of the source is refused, or it changes the source and the mark and nothing else. -/
theorem moveSource_cases (bytes : List Byte) (eos : Bool) (s : State) :
    (sourceBound s = true ∧ moveSource bytes eos s = .refused .sourceProtocol) ∨
    moveSource bytes eos s = .next { s with env := { s.env with source := bytes, eos := eos } } := by
  unfold moveSource
  split
  · rename_i h; exact .inl ⟨(Bool.and_eq_true_iff.mp h).1, rfl⟩
  · exact .inr rfl

/-- A source that is not bound, or that goes on showing what it shows, moves. -/
theorem moveSource_next {bytes : List Byte} {eos : Bool} {s : State}
    (h : sourceBound s = false ∨ inNext { s with env := { s.env with source := bytes, eos := eos } } = inNext s) :
    moveSource bytes eos s = .next { s with env := { s.env with source := bytes, eos := eos } } := by
  unfold moveSource
  rcases h with h | h <;> simp [h]

/-! ## The packer -/

@[simp] theorem putBits_nil (w : BitWriter) : putBits w [] = w := rfl

@[simp] theorem putBits_cons (w : BitWriter) (b : Bool) (bits : List Bool) :
    putBits w (b :: bits) = putBits (putBit w b) bits := rfl

theorem putBits_append (w : BitWriter) (xs ys : List Bool) :
    putBits w (xs ++ ys) = putBits (putBits w xs) ys := List.foldl_append

/-- The flush does nothing, or outputs the partial byte. -/
theorem flush_cases (s : State) :
    (s.fill = 0#3 ∧ flush s = s) ∨
    (s.fill ≠ 0#3 ∧ flush s = { s with oq := s.oq ++ [s.acc], acc := 0#8, fill := 0#3 }) := by
  unfold flush
  by_cases h : s.fill = 0#3
  · exact .inl ⟨h, if_pos h⟩
  · exact .inr ⟨h, if_neg h⟩

/-- One pass of PACK: what it can do. -/
theorem packPass_cases (s : State) :
    (packNoLut s = true ∧ packPass s = finish .pack .noLut s) ∨
    (packNoLut s = false ∧ s.cnt = s.nsym ∧ packPass s = finish .pack .none (flush s)) ∨
    (packNoLut s = false ∧ s.cnt ≠ s.nsym ∧
      ((inNext s = .nothing ∧ packPass s = s) ∨
       (inNext s = .eos ∧ packPass s = finish .pack .underrun s) ∨
       (∃ b, inNext s = .byte b ∧ (lookup s b).v = true ∧ packPass s = packSymbol (lookup s b) (takeByte s)) ∨
       (∃ b, inNext s = .byte b ∧ (lookup s b).v = false ∧ packPass s = finish .pack .noCode (takeByte s)))) := by
  unfold packPass
  cases packNoLut s
  · by_cases hc : s.cnt = s.nsym
    · simp [hc]
    · cases hi : inNext s with
      | nothing => simp [hc]
      | eos => simp [hc]
      | byte b => cases hv : (lookup s b).v <;> simp [hc, hv]
  · simp

/-! ## The unpacker -/

/-- An Internal word in UNPACK: what it can do. -/
theorem unpackInternal_cases (low high : NodeIdx) (s : State) :
    (s.depth = Config.maxLen ∧ unpackInternal low high s = finish .unpack .treeDepth s) ∨
    (s.depth ≠ Config.maxLen ∧
      ((s.bitsLeft ≠ 0#4 ∧ unpackInternal low high s = unpackBit low high s) ∨
       (s.bitsLeft = 0#4 ∧ inNext s = .nothing ∧ unpackInternal low high s = s) ∨
       (s.bitsLeft = 0#4 ∧ inNext s = .eos ∧ unpackInternal low high s = finish .unpack .truncated s) ∨
       (∃ b, s.bitsLeft = 0#4 ∧ inNext s = .byte b ∧
        unpackInternal low high s = unpackBit low high (fetchByte b s)))) := by
  unfold unpackInternal
  by_cases hd : s.depth = Config.maxLen
  · simp [hd]
  · by_cases hb : s.bitsLeft = 0#4
    · cases hi : inNext s <;> simp [hd, hb]
    · simp [hd, hb]

end Sys2Proof.Machine
end

