-- ==== Sys2Proof/Laws/PerInstr.lean ====
section
/-! SUPPORT. Per instruction: its word is written in the format spec/opcode_table.json gives its row. -/

namespace Sys2Proof.Laws.WordFormat

/-- The word of `i` is in the format of its row. -/
def Statement (i : Instr) : Prop := (encode i).format = i.format

theorem nop : Statement .nop := rfl
theorem gen : Statement .gen := rfl
theorem pack : Statement .pack := rfl
theorem unpack : Statement .unpack := rfl
theorem clr : Statement .clr := rfl
theorem srst : Statement .srst := rfl
theorem regrd (r : Reg) : Statement (.regrd r) := rfl
theorem regwr (r : Reg) (v : Word) : Statement (.regwr r v) := rfl
theorem nodeLeaf (x : BitVec 10) (sym : Sym) : Statement (.nodeLeaf x sym) := rfl
theorem nodeInternal (low high : NodeIdx) : Statement (.nodeInternal low high) := rfl

end Sys2Proof.Laws.WordFormat
end

