-- ==== Sys2Proof/Laws/Step.lean ====
section
/-! SUPPORT. Said once: what a step can do. Every invariant is derived from `step_did`. -/

namespace Sys2Proof.Machine

/-- The atomic changes of state, with the guard each is made under. -/
inductive Did (s : State) : State → Prop
  /-- Nothing changes: a dropped write, a write without effect, an agent with nothing to do. -/
  | nothing : Did s s
  /-- Only the world around the block changes. -/
  | world (e : Env) : Did s { s with env := e }
  /-- The host reads a register. -/
  | read (r : Reg) : Did s (setRdata (readReg r s) (afterRead r s))
  /-- The host writes a register other than CMD, while idle. -/
  | write (r : Reg) (v : Word) (hr : r ≠ .cmd) (hp : s.phase = .idle) : Did s (writeReg r v s)
  /-- The host issues a command or an illegal word, while idle. -/
  | command (c : Option Command) (hp : s.phase = .idle) : Did s (performCommand c s)
  /-- A reset event, or SRST. -/
  | reset : Did s (resetEvent s)
  /-- The sink takes a byte. -/
  | sink : Did s (sinkTransfer s)
  | genStart (hp : s.phase = .gen) (hg : s.gen = .fresh) : Did s (genStart s)
  | genDone (hp : s.phase = .gen) (hg : s.gen = .visiting []) : Did s (finish .gen .none s)
  | genLeaf (it : GenItem) (rest : List GenItem) (hp : s.phase = .gen) (hg : s.gen = .visiting (it :: rest))
      (hl : isInternal (memRead s it.node) = false) :
      Did s (genLeaf (symOf (memRead s it.node)) it rest s)
  | genInternal (it : GenItem) (rest : List GenItem) (hp : s.phase = .gen) (hg : s.gen = .visiting (it :: rest))
      (hl : isInternal (memRead s it.node) = true) :
      Did s (genInternal (lowOf (memRead s it.node)) (highOf (memRead s it.node)) it rest s)
  | pack (hp : s.phase = .pack) : Did s (packPass s)
  | unpackDone (hp : s.phase = .unpack) (hc : s.cnt = s.nsym) : Did s (finish .unpack .none s)
  | unpackLeaf (hp : s.phase = .unpack) (hc : s.cnt ≠ s.nsym) (hl : isInternal (memRead s s.cur) = false) :
      Did s (unpackLeaf (symOf (memRead s s.cur)) s)
  | unpackInternal (hp : s.phase = .unpack) (hc : s.cnt ≠ s.nsym) (hl : isInternal (memRead s s.cur) = true) :
      Did s (unpackInternal (lowOf (memRead s s.cur)) (highOf (memRead s s.cur)) s)
  | complete (op : Op) (hp : s.phase = .drain op) (ho : s.oq = []) : Did s (complete op s)

theorem decodeNode_internal {w : NodeWord} (h : isInternal w = true) :
    decodeNode w = .nodeInternal (lowOf w) (highOf w) := by
  simp only [decodeNode, show w.getLsbD 18 = true from h, if_true]; rfl

theorem decodeNode_leaf {w : NodeWord} (h : isInternal w = false) :
    decodeNode w = .nodeLeaf (w.extractLsb' 8 10) (symOf w) := by
  simp only [decodeNode, show w.getLsbD 18 = false from h, Bool.false_eq_true, if_false]; rfl

/-- What a host operation can do. -/
theorem exec_host_did {i : Instr} {s t : State} (hi : i.format ≠ .node19) (h : exec i s = .next t) : Did s t := by
  have idle : ∀ (f : State → State) (c : Option Command), (∀ u, performCommand c u = f u) →
      Did s (whenIdle f s) := fun f c hf => by
    by_cases hp : s.phase = .idle
    · rw [whenIdle_idle hp, ← hf]; exact .command c hp
    · rw [whenIdle_busy hp]; exact .nothing
  cases i with
  | nop => cases h; exact idle _ (some .nop) (fun _ => rfl)
  | gen => cases h; exact idle _ (some .gen) (fun _ => rfl)
  | pack => cases h; exact idle _ (some .pack) (fun _ => rfl)
  | unpack => cases h; exact idle _ (some .unpack) (fun _ => rfl)
  | clr => cases h; exact idle _ (some .clr) (fun _ => rfl)
  | srst => cases h; exact .reset
  | regrd r => cases h; exact .read r
  | regwr r v =>
    cases h
    by_cases ha : writeAccepted r v s = true
    · rw [if_pos ha]
      rcases writeAccepted_iff.mp ha with hp | ⟨rfl, rfl⟩
      · by_cases hr : r = .cmd
        · subst hr; exact .command _ hp
        · exact .write r v hr hp
      · exact .reset
    · rw [if_neg ha]; exact .nothing
  | nodeLeaf _ _ => exact absurd rfl hi
  | nodeInternal _ _ => exact absurd rfl hi

/-- What the engine's turn can do. -/
theorem engineStep_did {s t : State} (h : engineStep s = .next t) : Did s t := by
  unfold engineStep at h
  cases hp : s.phase with
  | idle => rw [hp] at h; cases h; exact .nothing
  | gen =>
    rw [hp] at h
    cases hg : s.gen with
    | fresh => simp only [hg] at h; cases h; exact .genStart hp hg
    | visiting st =>
      cases st with
      | nil => simp only [hg] at h; cases h; exact .genDone hp hg
      | cons it rest =>
        simp only [hg] at h
        cases hl : isInternal (memRead s it.node) with
        | true =>
          rw [decodeNode_internal hl] at h
          simp only [exec, execNodeInternal, hp, hg] at h
          cases h; exact .genInternal it rest hp hg hl
        | false =>
          rw [decodeNode_leaf hl] at h
          simp only [exec, execNodeLeaf, hp, hg] at h
          cases h; exact .genLeaf it rest hp hg hl
  | pack => rw [hp] at h; cases h; exact .pack hp
  | unpack =>
    simp only [hp] at h
    by_cases hc : s.cnt = s.nsym
    · rw [if_pos hc] at h; cases h; exact .unpackDone hp hc
    · rw [if_neg hc] at h
      cases hl : isInternal (memRead s s.cur) with
      | true =>
        rw [decodeNode_internal hl] at h
        simp only [exec, execNodeInternal, hp, if_neg hc] at h
        cases h; exact .unpackInternal hp hc hl
      | false =>
        rw [decodeNode_leaf hl] at h
        simp only [exec, execNodeLeaf, hp, if_neg hc] at h
        cases h; exact .unpackLeaf hp hc hl
  | drain op =>
    simp only [hp] at h
    by_cases ho : s.oq.isEmpty = true
    · rw [if_pos ho] at h; cases h; exact .complete op hp (List.isEmpty_iff.mp ho)
    · rw [if_neg ho] at h; cases h; exact .nothing

theorem freeRun_did {s t : State} (h : freeRun s = .next t) : Did s t := by
  unfold freeRun at h
  split at h
  · exact engineStep_did h
  · split at h
    · cases h; exact .sink
    · cases h; exact .nothing

/-- A command word decodes to the instruction of a command, or is an illegal command. -/
theorem hostCommand_did {w : Word} {s t : State} (h : hostCommand w s = .next t) : Did s t := by
  unfold hostCommand decode at h
  cases hc : decodeCommand w with
  | some c => simp only [hc] at h; exact exec_host_did (by cases c <;> simp [Instr.ofCommand, Instr.format]) h
  | none =>
    simp only [hc] at h; cases h
    by_cases hp : s.phase = .idle
    · rw [whenIdle_idle hp]; exact .command none hp
    · rw [whenIdle_busy hp]; exact .nothing

theorem hostAccess_did {tuple : BitVec 6} {v : Word} {s t : State} (h : hostAccess tuple v s = .next t) : Did s t := by
  refine exec_host_did ?_ h
  unfold decodePort; split <;> simp [Instr.format]

/-- SAID ONCE: a step that answers a next state takes its event from the list, and then makes one atomic change. -/
theorem step_did {s t : State} (h : step s = .next t) : ∃ es, Did (setEvents es s) t := by
  unfold step nextEvent at h
  split at h
  · exact ⟨s.env.events, freeRun_did h⟩
  · exact ⟨_, hostCommand_did h⟩
  · exact ⟨_, hostAccess_did h⟩
  · split at h
    · exact ⟨s.env.events, freeRun_did h⟩
    · exact ⟨_, exec_host_did (by simp [Instr.format]) h⟩
  · exact ⟨_, engineStep_did h⟩
  · cases h; exact ⟨_, .sink⟩
  · cases h; exact ⟨_, .world _⟩
  · unfold offerByte at h
    rcases moveSource_cases _ _ _ with ⟨_, e⟩ | e <;> rw [e] at h <;> cases h
    exact ⟨_, .world _⟩
  · cases h; exact ⟨_, .world _⟩
  · unfold repositionSource at h
    rcases moveSource_cases _ _ _ with ⟨_, e⟩ | e <;> rw [e] at h <;> cases h
    exact ⟨_, .world _⟩
  · cases h; exact ⟨_, .reset⟩

/-- The two spellings of a write to CMD are one (log 15). -/
theorem hostCommand_eq (w : Word) (s : State) : hostCommand w s = exec (.regwr .cmd w) s := by
  by_cases hw : w = 0x00000005#32
  · subst hw; simp [hostCommand, decode, decodeCommand, Instr.ofCommand, exec, execSrst, execRegwr, writeAccepted, writeReg,
      performCommand]
  have ns : decodeCommand w ≠ some .srst := by
    unfold decodeCommand; split_ifs <;> simp_all
  have accepted : writeAccepted .cmd w s = true ↔ s.phase = .idle := by simp [writeAccepted_iff, hw]
  unfold hostCommand decode
  cases hc : decodeCommand w with
  | none =>
    by_cases hp : s.phase = .idle <;>
      simp [exec, execRegwr, accepted, hp, whenIdle_idle, whenIdle_busy, writeReg_cmd, hc, performCommand]
  | some c =>
    by_cases hp : s.phase = .idle <;> cases c <;>
      simp_all [Instr.ofCommand, exec, execRegwr, writeReg_cmd, performCommand, execNop, execGen, execPack, execUnpack,
        execClr, whenIdle_idle, whenIdle_busy]

/-- The register port's tuple that names CMD in a write. -/
theorem decodePort_regwr_cmd {tuple : BitVec 6} {v w : Word} (h : decodePort tuple v = .regwr .cmd w) :
    tuple = 0b100000#6 ∧ w = v := by
  unfold decodePort at h
  split at h
  · injection h with hr hv
    refine ⟨?_, hv.symm⟩
    revert hr; revert tuple; decide
  · cases h

/-- Who makes a step, and under which next event. -/
inductive Made (s t : State) : Prop
  /-- The host, with a write to CMD. -/
  | command (es : List Event) (w : Word) (hn : writesCmd s w) (h : exec (.regwr .cmd w) (setEvents es s) = .next t)
  /-- The host, with a write to another register. -/
  | write (es : List Event) (tuple : BitVec 6) (r : Reg) (v : Word) (hn : s.env.events = .access tuple v :: es)
      (hd : decodePort tuple v = .regwr r v) (hr : r ≠ .cmd) (h : exec (.regwr r v) (setEvents es s) = .next t)
  /-- The host, with a read, or with the read that ends a `wait`. -/
  | read (es : List Event) (r : Reg) (h : exec (.regrd r) (setEvents es s) = .next t)
  /-- An edge with `rst` = 1. -/
  | reset (es : List Event) (hn : resetsNext s) (h : t = resetEvent (setEvents es s))
  | engine (es : List Event) (h : engineStep (setEvents es s) = .next t)
  | sink (es : List Event) (h : t = sinkTransfer (setEvents es s))
  /-- Only the world around the block changes, or nothing does. -/
  | world (e : Env) (h : t = { s with env := e })

/-- SAID ONCE, WITH THE EVENT: every step that answers a next state is made by one of them. -/
theorem step_made {s t : State} (h : step s = .next t) : Made s t := by
  have free (hf : freeRun s = .next t) : Made s t := by
    unfold freeRun at hf
    split at hf
    · exact .engine s.env.events hf
    · split at hf <;> cases hf
      · exact .sink s.env.events rfl
      · exact .world s.env rfl
  unfold step nextEvent at h
  split at h
  · exact free h
  · exact .command _ _ ⟨_, .inl (by assumption)⟩ (hostCommand_eq _ _ ▸ h)
  · rename_i tuple v rest he
    unfold hostAccess at h
    cases hd : decodePort tuple v with
    | regrd r => exact .read rest r (hd ▸ h)
    | regwr r w =>
      rw [hd] at h
      by_cases hr : r = .cmd
      · subst hr
        obtain ⟨rfl, rfl⟩ := decodePort_regwr_cmd hd
        exact .command rest _ ⟨_, .inr he⟩ h
      · obtain rfl : w = v := by unfold decodePort at hd; split at hd <;> cases hd; rfl
        exact .write rest tuple r w he hd hr h
    | _ => unfold decodePort at hd; split at hd <;> cases hd
  · split at h
    · exact free h
    · exact .read _ .status h
  · exact .engine _ h
  · cases h; exact .sink _ rfl
  · cases h; exact .world _ rfl
  · unfold offerByte at h
    rcases moveSource_cases _ _ _ with ⟨_, e⟩ | e <;> rw [e] at h <;> cases h
    exact .world _ rfl
  · cases h; exact .world _ rfl
  · unfold repositionSource at h
    rcases moveSource_cases _ _ _ with ⟨_, e⟩ | e <;> rw [e] at h <;> cases h
    exact .world _ rfl
  · cases h; exact .reset _ (.inl ⟨_, by assumption⟩) rfl

/-- Running `k` steps is the host's own `run` of the machine. -/
theorem runSteps_eq_run (k : Nat) (s : State) : runSteps k s = Host.Core.run Sys2Proof.core k s := by
  induction k generalizing s with
  | zero => rfl
  | succ k ih =>
    simp only [runSteps, Host.Core.run]
    rw [show core.step s = step s from rfl]
    cases step s with
    | next t => exact ih t
    | fault r => cases r
    | refused r => rfl

theorem runSteps_add (j k : Nat) (s : State) :
    runSteps (j + k) s = match runSteps j s with | .next t => runSteps k t | .fault r => .fault r | .refused r => .refused r := by
  induction j generalizing s with
  | zero => simp [runSteps]
  | succ j ih =>
    rw [Nat.add_right_comm]
    simp only [runSteps]
    cases step s <;> simp [ih]

end Sys2Proof.Machine
end

