-- ==== Sys2Proof/Tests/Slice0.lean ====
section
/-! SUPPORT. The model's own tests: ill-formed terms refused, words written out from the spec's encodings decoded, single steps with results from spec/95_test_vectors.md, and for each obligation with hypotheses a state and operands that meet them. -/

namespace Sys2Proof.Tests

open Sys2Proof.Machine

/-! ## Well-formedness: the one check refuses -/

theorem test_reserved_below_18_ill_formed_read : (Instr.regrd (.reserved 17#5)).wf = false := by decide
theorem test_reserved_below_18_ill_formed_write : (Instr.regwr (.reserved 0#5) 1#32).wf = false := by decide
theorem test_reserved_18_well_formed : (Instr.regrd (.reserved 18#5)).wf = true := by decide

/-! ## Decoding: words written out bit by bit (30_encoding.md R101, R104; 40_host_access.md R130) -/

theorem test_decode_nop : decodeTableWord 32 0b00000000000000000000000000000000 = some .nop := by decide
theorem test_decode_gen : decodeTableWord 32 0b00000000000000000000000000000001 = some .gen := by decide
theorem test_decode_pack : decodeTableWord 32 0b00000000000000000000000000000010 = some .pack := by decide
theorem test_decode_unpack : decodeTableWord 32 0b00000000000000000000000000000011 = some .unpack := by decide
theorem test_decode_clr : decodeTableWord 32 0b00000000000000000000000000000100 = some .clr := by decide
theorem test_decode_srst : decodeTableWord 32 0b00000000000000000000000000000101 = some .srst := by decide
/-- K5: a legal OP with bit 4 set is illegal. -/
theorem test_decode_illegal : decodeTableWord 32 0b00000000000000000000000000010010 = none := by decide
theorem test_decode_regrd : decodeTableWord 8 0b00000101 = some (.regrd .cnt) := by decide
theorem test_decode_regrd_bits : decodeTableWord 8 0b00010001 = some (.regrd (.lutBits 7#3)) := by decide
theorem test_decode_regwr : decodeTableWord 8 0b00100011 = some (.regwr .root 0#32) := by decide
theorem test_decode_regwr_reserved : decodeTableWord 8 0b00110010 = some (.regwr (.reserved 18#5) 0#32) := by decide
/-- G12: 0x3FF5A is a Leaf 'Z' with upper bits. -/
theorem test_decode_leaf : decodeTableWord 24 0b0111111111101011010 = some (.nodeLeaf 0x3FF#10 0x5A#8) := by decide
/-- G4: 0x40403 is Internal, low 2, high 3. -/
theorem test_decode_internal : decodeTableWord 24 0b1000000010000000011 = some (.nodeInternal 2#9 3#9) := by decide

/-! ## States -/

/-- The tree T1 of 95_test_vectors.md section 2. -/
def treeT1 : Memory := [(0, 0x40202#19), (1, 0x40604#19), (2, 0x41#19), (3, 0x43#19), (4, 0x42#19)]

/-- Idle, T1 loaded and its table valid, as vector G1 leaves it. -/
def afterG1 : State :=
  { State.reset with
    tm := treeT1, lut := [(0x41, ⟨1#8, 1#255⟩), (0x42, ⟨2#8, 1#255⟩), (0x43, ⟨2#8, 0#255⟩)]
    lutValid := true, done := true, cnt := 3#32 }

/-- `s` with one event to come. -/
def facing (e : Event) (s : State) : State := { s with env := { s.env with events := [e] } }

/-- PACK on T1 waiting for its next symbol. -/
def packing : State := { afterG1 with phase := .pack, done := false, cnt := 0#32, nsym := 10#32 }

/-- UNPACK on T1 at the root. -/
def unpacking : State := { afterG1 with phase := .unpack, done := false, cnt := 0#32, nsym := 10#32 }

/-- GEN on T1 with node `i` to visit next, at path length `n`. -/
def visitingNode (i : NodeIdx) (n : CodeLen) : State :=
  { State.reset with tm := treeT1, phase := .gen, gen := .visiting [⟨i, 0#255, n⟩] }

/-- Does the outcome give a next state that passes the check? -/
def gives (o : Host.Outcome State Fault Refusal) (p : State → Bool) : Bool :=
  match o with
  | .next s => p s
  | .fault _ => false
  | .refused _ => false

/-! ## One step each, results from 95_test_vectors.md -/

/-- K2: NOP keeps STATUS 0x56. -/
theorem test_nop : gives (step (facing (.command 0#32) { afterG1 with err := .truncated }))
    (fun t => statusWord t = 0x56#32) = true := by decide
/-- K3: CLR takes STATUS 0x56 to 0x04. -/
theorem test_clr : gives (step (facing (.command 4#32) { afterG1 with err := .truncated }))
    (fun t => statusWord t = 0x04#32) = true := by decide
/-- K14: GEN clears LUT_VALID at acceptance, STATUS 0x01. -/
theorem test_gen : gives (step (facing (.command 1#32) afterG1)) (fun t => statusWord t = 0x01#32) = true := by decide
/-- K9: acceptance clears DONE and ERR, STATUS 0x05. -/
theorem test_unpack : gives (step (facing (.command 3#32) { afterG1 with err := .illegalCmd }))
    (fun t => statusWord t = 0x05#32) = true := by decide
theorem test_pack : gives (step (facing (.command 2#32) afterG1))
    (fun t => statusWord t = 0x05#32 && t.cnt = 0#32) = true := by decide
/-- K12: SRST works while busy; the tree survives. -/
theorem test_srst : gives (step (facing (.command 5#32) unpacking))
    (fun t => statusWord t = 0#32 && t.nsym = 0#32 && t.tm = treeT1) = true := by decide
/-- K5: an illegal word on STATUS 0x04 gives 0x16. -/
theorem test_illegal : gives (step (facing (.command 0x12#32) { afterG1 with done := false }))
    (fun t => statusWord t = 0x16#32) = true := by decide
/-- Section 2: LUT_LEN of 'B' reads 0x80000002. -/
theorem test_regrd_lut_len : gives (step (facing (.access 0b001001#6 0#32) { afterG1 with lutSym := 0x42#8 }))
    (fun t => t.env.rdata = 0x80000002#32) = true := by decide
/-- H16: TM_DATA reads while busy. -/
theorem test_regrd_tm_data : gives (step (facing (.access 0b000111#6 0#32) { packing with tmAddr := 4#9 }))
    (fun t => t.env.rdata = 0x42#32) = true := by decide
/-- H5: 19 bits of 0xFFFFFFFF are stored, and LUT_VALID falls. -/
theorem test_regwr_tm_data : gives (step (facing (.access 0b100111#6 0xFFFFFFFF#32) { afterG1 with tmAddr := 9#9 }))
    (fun t => memRead t 9#9 = 0x7FFFF#19 && t.lutValid = false) = true := by decide
/-- H15: a write while busy is dropped. -/
theorem test_regwr_busy : gives (step (facing (.access 0b100100#6 3#32) packing))
    (fun t => t.nsym = 10#32) = true := by decide
/-- Section 2, UNPACK trace: the Leaf 'A' at entry 2 is emitted and the walk returns to ROOT. -/
theorem test_leaf_unpack : gives (step (facing .engine { unpacking with cur := 2#9, depth := 1#8 }))
    (fun t => t.oq = [0x41#8] && t.cnt = 1#32 && t.cur = 0#9 && t.depth = 0#8) = true := by decide
/-- Section 2, GEN: 'A' at the end of path `1` is (1, 1, 1). -/
theorem test_leaf_gen : gives (step (facing .engine { visitingNode 2#9 1#8 with gen := .visiting [⟨2#9, 1#255, 1#8⟩] }))
    (fun t => t.lut = [(0x41, ⟨1#8, 1#255⟩)] && t.cnt = 1#32) = true := by decide
/-- Section 2, UNPACK trace: byte FA is fetched, its first bit 1 moves CUR from 0 to 2. -/
theorem test_internal_unpack : gives (step (facing .engine { unpacking with env := { Env.initial with source := [0xFA#8] } }))
    (fun t => t.cur = 2#9 && t.shreg = 0xF4#8 && t.bitsLeft = 7#4 && t.depth = 1#8 && t.env.source = []) = true := by decide
/-- Section 2, GEN: the root pushes node 1 with path `0`, then node 2 with path `1`. -/
theorem test_internal_gen : gives (step (facing .engine (visitingNode 0#9 0#8)))
    (fun t => t.gen = .visiting [⟨1#9, 0#255, 1#8⟩, ⟨2#9, 1#255, 1#8⟩]) = true := by decide
/-- Section 2, PACK trace, symbol 7: 'B' after FA held to 7 bits outputs FA and leaves 80, FILL 1. -/
theorem test_pack_symbol :
    gives (engineStep { packing with acc := 0xFA#8, fill := 7#3, env := { Env.initial with source := [0x42#8] } })
    (fun t => t.oq = [0xFA#8] && t.acc = 0x80#8 && t.fill = 1#3 && t.cnt = 1#32) = true := by decide
/-- The step runs a table word as the first instruction after reset. -/
theorem test_fetch_word_pack : step (State.reset.withFetchWord 32 2) = exec .pack State.reset := rfl
theorem test_fetch_word_leaf :
    gives (step (State.reset.withFetchWord 24 0x41)) (fun t => t.oq = [0x41#8]) = true := by decide

/-! ## Witnesses: the hypotheses of each obligation can be met, clause by clause -/

/-- A tree of two leaves and its valid table, for the claims about valid tables. -/
def twoLeaves : State :=
  { State.reset with
    tm := [(0, 0x40202#19), (1, 0x41#19), (2, 0x42#19)]
    lut := [(0x41, ⟨1#8, 0#255⟩), (0x42, ⟨1#8, 1#255⟩)], lutValid := true }

/-- The paths of the two-leaf tree. -/
theorem twoLeaves_walk {p : List Bool} {i : NodeIdx} (h : walk (memRead twoLeaves) 0#9 p = some i) :
    (p = [] ∧ i = 0#9) ∨ (p = [false] ∧ i = 1#9) ∨ (p = [true] ∧ i = 2#9) := by
  match p with
  | [] => exact .inl ⟨rfl, (Option.some.inj h).symm⟩
  | [false] => exact .inr (.inl ⟨rfl, (Option.some.inj h).symm⟩)
  | [true] => exact .inr (.inr ⟨rfl, (Option.some.inj h).symm⟩)
  | false :: _ :: _ => cases h
  | true :: _ :: _ => cases h

theorem twoLeaves_table : TableOf (memRead twoLeaves) twoLeaves.root twoLeaves.lut where
  bounded p i h := by rcases twoLeaves_walk h with ⟨rfl, -⟩ | ⟨rfl, -⟩ | ⟨rfl, -⟩ <;> decide
  complete p sym h := by
    obtain ⟨i, hw, hl, rfl⟩ := h
    rcases twoLeaves_walk hw with ⟨rfl, rfl⟩ | ⟨rfl, rfl⟩ | ⟨rfl, rfl⟩
    · exact absurd hl (by decide)
    · decide
    · decide
  sound sym c h := by
    have hs := cellGet_some_mem h
    simp only [twoLeaves, List.mem_cons, Prod.mk.injEq, List.not_mem_nil, or_false] at hs
    rcases hs with ⟨h1, rfl⟩ | ⟨h1, rfl⟩
    · exact ⟨[false], ⟨1#9, by decide, by decide, BitVec.eq_of_toNat_eq (h1 ▸ by decide)⟩, by decide⟩
    · exact ⟨[true], ⟨2#9, by decide, by decide, BitVec.eq_of_toNat_eq (h1 ▸ by decide)⟩, by decide⟩

theorem twoLeaves_tableInv : TableInv twoLeaves where
  valid _ := twoLeaves_table
  visiting h := by cases h
  drained h := by cases h

theorem twoLeaves_inv : StateInv twoLeaves where
  doneIdle := by decide
  errDone := by decide
  idleOq := by decide
  genOq := by decide
  accLow := by decide
  bitsLe := by decide
  cntLe := by decide
  genCntFresh := by decide
  genCnt := by decide
  genInvalid := by decide
  drainErr _ h := by cases h
  workFresh := by decide
  workStack _ h := by cases h
  tmWf := by decide
  lutWf := by decide

/-- GEN about to visit the root of T1. -/
theorem visitingRoot_inv : StateInv (visitingNode 0#9 0#8) where
  doneIdle := by decide
  errDone := by decide
  idleOq := by decide
  genOq := by decide
  accLow := by decide
  bitsLe := by decide
  cntLe := by decide
  genCntFresh := by decide
  genCnt := by decide
  genInvalid := by decide
  drainErr _ h := by cases h
  workFresh := by decide
  workStack st h := by cases h; simp [stackOk]
  tmWf := by decide
  lutWf := by decide

theorem witness_EveryStepKeepsTheStateInvariant : StateInv twoLeaves ∧ ∃ t, step twoLeaves = .next t :=
  ⟨twoLeaves_inv, _, rfl⟩
theorem witness_EveryStepKeepsTheTableInvariant :
    StateInv twoLeaves ∧ TableInv twoLeaves ∧ ∃ t, step twoLeaves = .next t :=
  ⟨twoLeaves_inv, twoLeaves_tableInv, _, rfl⟩
theorem witness_ResetEventClearsAllButTheMemories : (facing .reset packing).env.events = .reset :: [] := rfl
theorem witness_ValidTableIsTheTreesCodes : TableInv twoLeaves ∧ twoLeaves.lutValid = true ∧
    leadsTo (memRead twoLeaves) twoLeaves.root [true] 0x42#8 :=
  ⟨twoLeaves_tableInv, rfl, 2#9, by decide, by decide, by decide⟩
theorem witness_ValidTableIsTheTreesCodes_absent :
    ¬ ∃ p, leadsTo (memRead twoLeaves) twoLeaves.root p 0x43#8 := by
  rintro ⟨p, i, hw, hl, hs⟩
  rcases twoLeaves_walk hw with ⟨-, rfl⟩ | ⟨-, rfl⟩ | ⟨-, rfl⟩
  · exact absurd hl (by decide)
  · exact absurd hs (by decide)
  · exact absurd hs (by decide)
theorem witness_ValidCodesAreAPrefixCode : TableInv twoLeaves ∧ twoLeaves.lutValid = true ∧
    (0x41#8 : Sym) ≠ 0x42#8 ∧ (lookup twoLeaves 0x41#8).v = true ∧ (lookup twoLeaves 0x42#8).v = true :=
  ⟨twoLeaves_tableInv, rfl, by decide, by decide, by decide⟩
theorem witness_GenStackHoldsAtMost255Pending :
    StateInv (visitingNode 0#9 0#8) ∧ (visitingNode 0#9 0#8).gen = .visiting (⟨0#9, 0#255, 0#8⟩ :: []) :=
  ⟨visitingRoot_inv, rfl⟩
theorem witness_CntNeverExceedsItsBound_gen :
    StateInv (visitingNode 0#9 0#8) ∧ runningOp (visitingNode 0#9 0#8).phase = some .gen := ⟨visitingRoot_inv, rfl⟩
theorem witness_CntNeverExceedsItsBound_pack :
    StateInv { State.reset with phase := .pack } ∧ runningOp Phase.pack = some .pack := by
  refine ⟨?_, rfl⟩
  constructor <;> simp [State.reset, runningOp] <;> decide
theorem witness_CntNeverExceedsItsBound_unpack :
    StateInv { State.reset with phase := .unpack } ∧ runningOp Phase.unpack = some .unpack := by
  refine ⟨?_, rfl⟩
  constructor <;> simp [State.reset, runningOp] <;> decide
theorem witness_DecodeOfEncodeIsTheInstruction : (Instr.regwr (.reserved 31#5) 0xFFFFFFFF#32).wf = true := by decide
theorem witness_EncodeOfDecodeIsTheWord : decode (.cmd 5#32) = .ok .srst ∧ decode (.node 0x7FFFF#19) = .ok (.nodeInternal 511#9 511#9) ∧
    decode (.port 0b011111#6 7#32) = .ok (.regrd (.reserved 31#5)) := ⟨rfl, rfl, rfl⟩
theorem witness_StepRuns_command : (facing (.command 2#32) afterG1).env.events = .command 2#32 :: [] ∧
    decode (.cmd 2#32) = .ok .pack := ⟨rfl, rfl⟩
theorem witness_StepRuns_access : (facing (.access 0b100100#6 7#32) afterG1).env.events = .access 0b100100#6 7#32 :: [] ∧
    decode (.port 0b100100#6 7#32) = .ok (.regwr .nsym 7#32) := ⟨rfl, rfl⟩
theorem witness_StepRuns_unpack : (facing .engine unpacking).env.events = .engine :: [] ∧ unpacking.phase = .unpack ∧
    unpacking.cnt ≠ unpacking.nsym ∧ decode (.node (memRead unpacking unpacking.cur)) = .ok (.nodeInternal 1#9 2#9) :=
  ⟨rfl, rfl, by decide, rfl⟩
theorem witness_StepRuns_gen : (facing .engine (visitingNode 2#9 1#8)).env.events = .engine :: [] ∧
    (visitingNode 2#9 1#8).gen = .visiting (⟨2#9, 0#255, 1#8⟩ :: []) ∧ (visitingNode 2#9 1#8).phase = .gen ∧
    decode (.node (memRead (visitingNode 2#9 1#8) 2#9)) = .ok (.nodeLeaf 0#10 0x41#8) := ⟨rfl, rfl, rfl, rfl⟩
/-- Idle: the hypothesis of the NOP, CLR, acceptance, and register statements. -/
theorem witness_idle : afterG1.phase = .idle ∧ ∃ t, exec .clr afterG1 = .next t := ⟨rfl, _, rfl⟩
theorem witness_idle_acceptance : ∃ t, exec .unpack afterG1 = .next t := ⟨_, rfl⟩
/-- Busy: the hypothesis of the dropped-write clauses. -/
theorem witness_busy : packing.phase ≠ .idle ∧ ¬ (Reg.cmd = .cmd ∧ (6#32 : Word) = 0x00000005#32) ∧
    ¬ (Reg.nsym = .cmd ∧ (5#32 : Word) = 0x00000005#32) := by decide
theorem witness_IllegalCommandPostsErrorOne : 6 ≤ (6#32 : Word).toNat ∧ 6 ≤ (0xFFFFFFFF#32 : Word).toNat ∧
    (facing (.command 6#32) afterG1).env.events = .command 6#32 :: [] ∧ (facing (.command 6#32) afterG1).phase = .idle ∧
    (facing (.command 6#32) packing).env.events = .command 6#32 :: [] ∧ (facing (.command 6#32) packing).phase ≠ .idle := by
  decide
theorem witness_RegisterCmd : decodeCommand 4#32 = some .clr ∧ decodeCommand 6#32 = none ∧ afterG1.phase = .idle ∧
    packing.phase ≠ .idle ∧ (4#32 : Word) ≠ 0x00000005#32 := by decide
theorem witness_RegisterStatus : StateInv twoLeaves := twoLeaves_inv
theorem witness_RegisterTmData_other : (1#9 : NodeIdx) ≠ afterG1.tmAddr := by decide
theorem witness_RegisterLutLen_masked : State.reset.lutValid = false := rfl
theorem witness_RegisterLutBits : (lookup State.reset State.reset.lutSym).v = false ∧ (7#3 : BitVec 3) = 7#3 ∧ 31 < 32 := by decide
theorem witness_RegisterReserved : 18 ≤ (18#5 : BitVec 5).toNat ∧ 18 ≤ (31#5 : BitVec 5).toNat := by decide
theorem witness_LookupIsMasked : afterG1.lutValid = true ∧ cellGet afterG1.lut (0x42#8 : Sym).toNat = some ⟨2#8, 1#255⟩ ∧
    State.reset.lutValid = false ∧ cellGet afterG1.lut (0x44#8 : Sym).toNat = none := by decide

/-- GEN without error, about to complete. -/
def completing : State := { twoLeaves with lutValid := false, phase := .drain .gen }

theorem witness_OnlyGenCompletionSetsLutValid : ∃ t, step completing = .next t ∧ completing.lutValid = false ∧
    t.lutValid = true ∧ t.done = true := ⟨_, rfl, rfl, rfl, rfl⟩
theorem witness_DoneRises_completion : ∃ t, step completing = .next t ∧ completing.done = false ∧ t.done = true :=
  ⟨_, rfl, rfl, rfl⟩
theorem witness_DoneRises_illegal : ∃ t, step (facing (.command 6#32) twoLeaves) = .next t ∧ twoLeaves.done = false ∧
    t.done = true := ⟨_, rfl, rfl, rfl⟩
theorem witness_OnlyAHostWriteChangesTm : ∃ t, step (facing (.access 0b100111#6 0x43#32) afterG1) = .next t ∧
    memRead t 0#9 ≠ memRead (facing (.access 0b100111#6 0x43#32) afterG1) 0#9 := ⟨_, rfl, by decide⟩
theorem witness_OnlyGenChangesTheTable : ∃ t, step (facing .engine (visitingNode 2#9 1#8)) = .next t ∧
    t.lut ≠ (visitingNode 2#9 1#8).lut := ⟨_, rfl, by decide⟩
theorem witness_PhaseMovesOnlyAsStated : ∃ t, step (facing (.command 1#32) afterG1) = .next t ∧ t.phase = .gen := ⟨_, rfl, rfl⟩
theorem witness_OperandsAreConstantWhileBusy : ∃ t, step (facing (.access 0b100100#6 3#32) packing) = .next t ∧
    (facing (.access 0b100100#6 3#32) packing).phase ≠ .idle := ⟨_, rfl, by decide⟩
theorem witness_OperandsAreConstantWhileBusy_reset : resetsNext (facing (.access 0b100000#6 5#32) packing) ∧
    (facing (.access 0b100000#6 5#32) packing).phase ≠ .idle := ⟨.inr ⟨[], .inr rfl⟩, by decide⟩
theorem witness_OperandsAreConstantWhileBusy_idle : ∃ t, step (facing .engine afterG1) = .next t ∧
    (facing .engine afterG1).phase = .idle ∧ ¬ accessesNext (facing .engine afterG1) ∧ ¬ resetsNext (facing .engine afterG1) :=
  ⟨_, rfl, rfl, fun ⟨_, h⟩ => h.elim (fun ⟨_, h⟩ => nomatch h) (fun ⟨_, _, h⟩ => nomatch h),
    fun h => h.elim (fun ⟨_, h⟩ => nomatch h) (fun ⟨_, h⟩ => h.elim (fun h => nomatch h) (fun h => nomatch h))⟩
/-- A started operation names its word, in either spelling. -/
theorem witness_PhaseMovesOnlyAsStated_word : writesCmd (facing (.command 1#32) afterG1) 1#32 ∧
    writesCmd (facing (.access 0b100000#6 3#32) afterG1) 3#32 := ⟨⟨[], .inl rfl⟩, ⟨[], .inr rfl⟩⟩
/-- Idle, the stream ended by the mark. -/
def markShown : State := { afterG1 with env := { Env.initial with eos := true } }
/-- A mark shown to a PACK or an UNPACK, running or draining, is withdrawn by an offer: refused. -/
theorem witness_Source_offer_broken : ∀ p ∈ [Phase.pack, .unpack, .drain .pack, .drain .unpack],
    (runningOp p = some .pack ∨ runningOp p = some .unpack) ∧
      step (facing (.offer 1#8) { markShown with phase := p }) = .refused .sourceProtocol := by
  intro p hp; fin_cases hp <;> exact ⟨by decide, rfl⟩
/-- In IDLE, in GEN and in GEN's DRAIN a mark binds nothing, and a mark not yet shown binds nothing at all. -/
theorem witness_Source_offer_unbroken : ∀ p ∈ [Phase.idle, .gen, .drain .gen],
    ¬ (runningOp p = some .pack ∨ runningOp p = some .unpack) ∧
      gives (step (facing (.offer 1#8) { markShown with phase := p })) (fun t => t.env.source = [1#8] && !t.env.eos) = true := by
  intro p hp; fin_cases hp <;> decide
theorem witness_Source_offer_mark_pending :
    gives (step (facing (.offer 1#8) { packing with env := { Env.initial with source := [2#8], eos := true } }))
      (fun t => t.env.source = [2#8, 1#8]) = true := by decide
theorem witness_Source_endMark : (facing .endMark packing).env.events = .endMark :: [] := rfl
/-- The offered byte is changed under a PACK: refused; the byte kept, or the operation draining, or GEN: not. -/
theorem witness_Source_reposition_broken : [3#8].head? ≠ [2#8].head? ∧
    step (facing (.reposition [3#8] true) { packing with env := { Env.initial with source := [2#8] } }) =
      .refused .sourceProtocol ∧
    step (facing (.reposition [] false) { markShown with phase := .drain .unpack }) = .refused .sourceProtocol :=
  ⟨by decide, rfl, rfl⟩
theorem witness_Source_reposition_unbroken : ∀ p ∈ [Phase.idle, .gen, .drain .gen, .drain .pack, .drain .unpack],
    gives (step (facing (.reposition [3#8] true) { markShown with phase := p, env := { Env.initial with source := [2#8] } }))
      (fun t => t.env.source = [3#8] && t.env.eos) = true := by
  intro p hp; fin_cases hp <;> decide
theorem witness_Source_reposition_same_head :
    gives (step (facing (.reposition [2#8, 9#8] true) { packing with env := { Env.initial with source := [2#8] } }))
      (fun t => t.env.source = [2#8, 9#8]) = true ∧
    gives (step (facing (.reposition [] true) { markShown with phase := .pack })) (fun t => t.env.eos) = true ∧
    gives (step (facing (.reposition [7#8] false) packing)) (fun t => t.env.source = [7#8]) = true := by decide
theorem witness_Source_only_refusal :
    ∃ r, step (facing (.offer 1#8) { markShown with phase := .pack }) = .refused r := ⟨_, rfl⟩
theorem witness_EngineTakesOnlyTheByteItAskedFor :
    ∃ t, engineStep { packing with env := { Env.initial with source := [0x41#8] } } = .next t ∧ t.env.source = [] := ⟨_, rfl, rfl⟩
theorem witness_StuckInExactlyTwoSituations : packing.phase ≠ .idle ∧ engineEnabled packing = false ∧
    engineEnabled { completing with oq := [1#8] } = false ∧ (visitingNode 0#9 0#8).phase = .gen := by decide
theorem witness_StuckInExactlyTwoSituations_enabled : completing.phase ≠ .idle ∧ engineEnabled completing = true := by decide
theorem witness_StuckInExactlyTwoSituations_ends :
    let s := { unpacking with env := { Env.initial with source := [0xFA#8], eos := true } }
    (s.phase = .pack ∨ s.phase = .unpack) ∧ s.env.events = [] ∧ s.env.eos = true ∧ s.env.sinkReady = true := by decide
theorem witness_CompletionPostsTheResult : completing.phase = .drain .gen ∧ completing.oq = [] ∧
    { completing with phase := .drain .pack, oq := [1#8] }.phase = .drain .pack ∧ [1#8] ≠ ([] : List Byte) := by decide
theorem witness_SinkTakesTheHeadOfTheQueue : (facing .accept { packing with oq := [1#8, 2#8] }).env.events = .accept :: [] ∧
    (facing .accept { packing with oq := [1#8, 2#8] }).oq = 1#8 :: [2#8] ∧ (facing .accept packing).oq = [] := by decide
theorem witness_GenVisitsALeaf : (visitingNode 2#9 1#8).phase = .gen ∧
    (visitingNode 2#9 1#8).gen = .visiting (⟨2#9, 0#255, 1#8⟩ :: []) ∧
    cellGet (visitingNode 2#9 1#8).lut (0x41#8 : Sym).toNat = none ∧
    cellGet { visitingNode 2#9 1#8 with lut := afterG1.lut }.lut (0x41#8 : Sym).toNat ≠ none := by decide
theorem witness_GenVisitsAnInternalNode : (visitingNode 0#9 254#8).phase = .gen ∧
    (visitingNode 0#9 254#8).gen = .visiting (⟨0#9, 0#255, 254#8⟩ :: []) ∧ (254#8 : CodeLen) ≠ 255#8 ∧
    (visitingNode 0#9 255#8).gen = .visiting (⟨0#9, 0#255, 255#8⟩ :: []) := by decide
theorem witness_CodeBitsAreThePath : (List.replicate 255 true).length ≤ 255 :=
  List.length_replicate.le
theorem witness_GenSucceedsExactlyOnWellFormedTrees :
    twoLeaves.phase = .idle ∧ twoLeaves.oq = [] ∧ twoLeaves.env.events = [] := by decide
theorem witness_PackPassEnds_noLut : let s := { packing with lutValid := false }
    s.phase = .pack ∧ s.cnt = 0#32 ∧ s.nsym ≠ 0#32 ∧ s.lutValid = false := by decide
theorem witness_PackPassEnds_done : let s := { packing with cnt := 10#32, fill := 7#3 }
    s.phase = .pack ∧ s.cnt = s.nsym ∧ s.fill ≠ 0#3 ∧ { s with fill := 0#3 }.fill = 0#3 := by decide
theorem witness_PackPassEnds_underrun : let s := { packing with env := { Env.initial with eos := true } }
    s.phase = .pack ∧ s.cnt ≠ s.nsym ∧ s.lutValid = true ∧ s.env.source = [] ∧ s.env.eos = true := by decide
theorem witness_PackPassEnds_noCode : let s := { packing with env := { Env.initial with source := [0x58#8] } }
    s.phase = .pack ∧ s.cnt ≠ s.nsym ∧ s.lutValid = true ∧ s.env.source = 0x58#8 :: [] ∧ (lookup s 0x58#8).v = false := by decide
theorem witness_PackPassPacksOneSymbol : let s := { packing with env := { Env.initial with source := [0x42#8] } }
    s.phase = .pack ∧ s.cnt ≠ s.nsym ∧ s.env.source = 0x42#8 :: [] ∧ (lookup s 0x42#8).v = true := by decide
theorem witness_AppendPlacesEveryBit : let w : BitWriter := ⟨0xFA#8, 7#3, []⟩
    w.acc <<< w.fill.toNat = 0#8 := by decide
theorem witness_PackDeliversThePackedBitstream :
    let s := { twoLeaves with nsym := 2#32, env := { Env.initial with source := [0x41#8, 0x42#8] ++ [0x43#8] } }
    s.phase = .idle ∧ s.oq = [] ∧ s.env.events = [] ∧ s.env.sinkReady = true ∧ s.lutValid = true ∧
      s.env.source = [0x41#8, 0x42#8] ++ [0x43#8] ∧ s.nsym.toNat = [0x41#8, 0x42#8].length ∧
      ∀ x ∈ [0x41#8, 0x42#8], (lookup s x).v = true := by decide
theorem witness_UnpackEmitsALeaf : unpacking.phase = .unpack ∧ unpacking.cnt ≠ unpacking.nsym := by decide
theorem witness_UnpackConsumesOneBit : let s := { unpacking with depth := 254#8, bitsLeft := 8#4, shreg := 0xFA#8 }
    s.phase = .unpack ∧ s.cnt ≠ s.nsym ∧ s.depth ≠ 255#8 ∧ s.bitsLeft ≠ 0#4 := by decide
theorem witness_UnpackConsumesOneBit_fetch : let s := { unpacking with env := { Env.initial with source := [0xFA#8] } }
    s.phase = .unpack ∧ s.cnt ≠ s.nsym ∧ s.depth ≠ 255#8 ∧ s.bitsLeft = 0#4 ∧ s.env.source = 0xFA#8 :: [] := by decide
theorem witness_UnpackStopsOnABadWalk : { unpacking with depth := 255#8 }.depth = 255#8 ∧ unpacking.depth ≠ 255#8 ∧
    unpacking.bitsLeft = 0#4 ∧ unpacking.env.source = [] ∧ unpacking.env.eos = false ∧
    { unpacking with env := { Env.initial with eos := true } }.env.eos = true := by decide
theorem witness_NodeWordsDoNothingOutsideAWalk : afterG1.phase = .idle ∧ packing.phase = .pack ∧
    ∃ op, completing.phase = .drain op := ⟨rfl, rfl, .gen, rfl⟩
theorem witness_PackIgnoresTheTree : packing.phase = .pack ∧ ∃ t, engineStep packing = .next t := ⟨rfl, _, rfl⟩
theorem witness_UnpackIgnoresTheTable : unpacking.phase = .unpack ∧ ∃ t, engineStep unpacking = .next t := ⟨rfl, _, rfl⟩
theorem witness_ZeroSymbolsIsAnEmptyOperation : twoLeaves.phase = .idle ∧ twoLeaves.oq = [] ∧ twoLeaves.env.events = [] ∧
    twoLeaves.nsym = 0#32 := by decide
theorem witness_DegenerateTreeReadsNothing : let s := { State.reset with tm := [(0, 0x5A#19)], nsym := 5#32 }
    s.phase = .idle ∧ s.oq = [] ∧ s.env.events = [] ∧ s.env.sinkReady = true ∧ isInternal (memRead s s.root) = false := by decide
theorem witness_UnpackInvertsPack :
    let s := { twoLeaves with nsym := 2#32, env := { Env.initial with source := [0x40#8] ++ [0x12#8] } }
    s.phase = .idle ∧ s.oq = [] ∧ s.env.events = [] ∧ s.env.sinkReady = true ∧ s.lutValid = true ∧ TableInv s ∧
      s.nsym.toNat = [0x41#8, 0x42#8].length ∧ (∀ x ∈ [0x41#8, 0x42#8], (lookup s x).v = true) ∧
      s.env.source = packed (bitString s [0x41#8, 0x42#8]) ++ [0x12#8] :=
  ⟨rfl, rfl, rfl, rfl, rfl, TableInv.mk (fun _ => twoLeaves_table) (fun h => nomatch h) (fun h => nomatch h), rfl, by decide, rfl⟩

end Sys2Proof.Tests
end

/-!
# The state and the code table: what every step keeps (10_state.md)

First what each agent can do to the state, then the obligations read off from that.
-/

namespace Sys2Proof.Machine

/-! ## The engine's turn, outcome by outcome -/

/-- The phase an operation runs in. -/
def Op.phase : Op → Phase
  | .gen => .gen
  | .pack => .pack
  | .unpack => .unpack

@[simp] theorem runningOp_opPhase (op : Op) : runningOp op.phase = some op := by cases op <;> rfl

theorem opPhase_ne_idle (op : Op) : op.phase ≠ .idle := by cases op <;> simp [Op.phase]

/-- The engine at the node on top of GEN's stack: a Leaf. -/
theorem engineStep_genLeaf {s : State} {it : GenItem} {rest : List GenItem} (hp : s.phase = .gen)
    (hg : s.gen = .visiting (it :: rest)) (hl : isInternal (memRead s it.node) = false) :
    engineStep s = .next (genLeaf (symOf (memRead s it.node)) it rest s) := by
  simp only [engineStep, hp, hg, decodeNode_leaf hl, exec, execNodeLeaf]

/-- The engine at the node on top of GEN's stack: an Internal word. -/
theorem engineStep_genInternal {s : State} {it : GenItem} {rest : List GenItem} (hp : s.phase = .gen)
    (hg : s.gen = .visiting (it :: rest)) (hl : isInternal (memRead s it.node) = true) :
    engineStep s = .next (genInternal (lowOf (memRead s it.node)) (highOf (memRead s it.node)) it rest s) := by
  simp only [engineStep, hp, hg, decodeNode_internal hl, exec, execNodeInternal]

/-- The engine at CUR in UNPACK: a Leaf. -/
theorem engineStep_unpackLeaf {s : State} (hp : s.phase = .unpack) (hc : s.cnt ≠ s.nsym)
    (hl : isInternal (memRead s s.cur) = false) :
    engineStep s = .next (unpackLeaf (symOf (memRead s s.cur)) s) := by
  simp only [engineStep, hp, hc, decodeNode_leaf hl, exec, execNodeLeaf, if_false]

/-- The engine at CUR in UNPACK: an Internal word. -/
theorem engineStep_unpackInternal {s : State} (hp : s.phase = .unpack) (hc : s.cnt ≠ s.nsym)
    (hl : isInternal (memRead s s.cur) = true) :
    engineStep s = .next (unpackInternal (lowOf (memRead s s.cur)) (highOf (memRead s s.cur)) s) := by
  simp only [engineStep, hp, hc, decodeNode_internal hl, exec, execNodeInternal, if_false]

/-- What one turn of the engine can do, with no other agent's moves among it: `Did` restricted to the engine, each
branch of the model's operations taken apart. -/
inductive EngineDid (s : State) : State → Prop
  /-- Idle, a silent source, or OQ still to be taken while draining. -/
  | wait : EngineDid s s
  | genStart (hp : s.phase = .gen) (hg : s.gen = .fresh) : EngineDid s (genStart s)
  /-- GEN records the code of a Leaf met for the first time. -/
  | genRecord (it : GenItem) (rest : List GenItem) (hp : s.phase = .gen) (hg : s.gen = .visiting (it :: rest))
      (hl : isInternal (memRead s it.node) = false)
      (hn : cellGet s.lut (symOf (memRead s it.node)).toNat = none) :
      EngineDid s { s with
        lut := cellPut s.lut (symOf (memRead s it.node)).toNat { len := it.len, value := it.path }
        cnt := s.cnt + 1#32
        gen := .visiting rest }
  /-- GEN replaces an Internal node by its two children. -/
  | genPush (it : GenItem) (rest : List GenItem) (hp : s.phase = .gen) (hg : s.gen = .visiting (it :: rest))
      (hl : isInternal (memRead s it.node) = true) (hlen : it.len ≠ Config.maxLen) :
      EngineDid s { s with
        gen := .visiting
          ({ node := lowOf (memRead s it.node), path := appendPath it.path false, len := it.len + 1#8 } ::
           { node := highOf (memRead s it.node), path := appendPath it.path true, len := it.len + 1#8 } :: rest) }
  /-- An operation ends, with the error it raises; GEN without one only when no node is left to visit. -/
  | finish (op : Op) (e : ErrCode) (hp : s.phase = op.phase) (he : mayRaise op e = true)
      (hg : op = .gen → ∃ st, s.gen = .visiting st ∧ (e = .none → st = [])) : EngineDid s (finish op e s)
  /-- PACK ends after its last symbol, with the bits still held output as a byte. -/
  | packFlush (hp : s.phase = .pack) : EngineDid s (finish .pack .none (flush s))
  /-- PACK ends with the byte it took, which has no code. -/
  | packNoCode (hp : s.phase = .pack) (hr : inReady s = true) (b : Byte) (hi : inNext s = .byte b) :
      EngineDid s (finish .pack .noCode (takeByte s))
  | packSymbol (hp : s.phase = .pack) (hr : inReady s = true) (hc : s.cnt ≠ s.nsym) (b : Byte)
      (hi : inNext s = .byte b) : EngineDid s (packSymbol (lookup s b) (takeByte s))
  | unpackLeaf (hp : s.phase = .unpack) (hc : s.cnt ≠ s.nsym) : EngineDid s (unpackLeaf (symOf (memRead s s.cur)) s)
  /-- UNPACK consumes a bit it holds. -/
  | unpackBit (low high : NodeIdx) (hp : s.phase = .unpack) (hb : s.bitsLeft ≠ 0#4) :
      EngineDid s (unpackBit low high s)
  /-- UNPACK consumes the first bit of the byte it fetches. -/
  | unpackFetch (low high : NodeIdx) (hp : s.phase = .unpack) (hr : inReady s = true) (b : Byte)
      (hi : inNext s = .byte b) : EngineDid s (unpackBit low high (fetchByte b s))
  | complete (op : Op) (hp : s.phase = .drain op) (ho : s.oq = []) : EngineDid s (complete op s)

/-- The visit of a Leaf by GEN. -/
theorem genLeaf_did {s : State} {it : GenItem} {rest : List GenItem} (hp : s.phase = .gen)
    (hg : s.gen = .visiting (it :: rest)) (hl : isInternal (memRead s it.node) = false) :
    EngineDid s (genLeaf (symOf (memRead s it.node)) it rest s) := by
  unfold genLeaf
  cases hn : cellGet s.lut (symOf (memRead s it.node)).toNat with
  | none => exact .genRecord it rest hp hg hl hn
  | some c => exact .finish .gen .dupSym hp rfl (fun _ => ⟨_, hg, nofun⟩)

/-- The visit of an Internal word by GEN. -/
theorem genInternal_did {s : State} {it : GenItem} {rest : List GenItem} (hp : s.phase = .gen)
    (hg : s.gen = .visiting (it :: rest)) (hl : isInternal (memRead s it.node) = true) :
    EngineDid s (genInternal (lowOf (memRead s it.node)) (highOf (memRead s it.node)) it rest s) := by
  unfold genInternal
  split
  · exact .finish .gen .treeDepth hp rfl (fun _ => ⟨_, hg, nofun⟩)
  · next hlen => exact .genPush it rest hp hg hl hlen

/-- A pass of PACK. -/
theorem packPass_did {s : State} (hp : s.phase = .pack) : EngineDid s (packPass s) := by
  rcases packPass_cases s with ⟨-, e⟩ | ⟨-, -, e⟩ | ⟨hn, hc, hpass⟩
  · exact e ▸ .finish .pack .noLut hp rfl nofun
  · exact e ▸ .packFlush hp
  · have hr : inReady s = true := by simp [inReady, hp, hn, hc]
    rcases hpass with ⟨-, e⟩ | ⟨-, e⟩ | ⟨b, hi, -, e⟩ | ⟨b, hi, -, e⟩ <;> rw [e]
    · exact .wait
    · exact .finish .pack .underrun hp rfl nofun
    · exact .packSymbol hp hr hc b hi
    · exact .packNoCode hp hr b hi

/-- An Internal word under UNPACK. -/
theorem unpackInternal_did {s : State} (hp : s.phase = .unpack) (hc : s.cnt ≠ s.nsym)
    (hl : isInternal (memRead s s.cur) = true) (low high : NodeIdx) :
    EngineDid s (unpackInternal low high s) := by
  rcases unpackInternal_cases low high s with
    ⟨-, e⟩ | ⟨hd, ⟨hb, e⟩ | ⟨-, -, e⟩ | ⟨-, -, e⟩ | ⟨b, hb, hi, e⟩⟩ <;> rw [e]
  · exact .finish .unpack .treeDepth hp rfl nofun
  · exact .unpackBit low high hp hb
  · exact .wait
  · exact .finish .unpack .truncated hp rfl nofun
  · exact .unpackFetch low high hp (by simp [inReady, hp, hc, hl, hd, hb]) b hi

/-- SAID ONCE: the engine's turn always answers a next state, by one of these outcomes. -/
theorem engineStep_answers (s : State) : ∃ t, engineStep s = .next t ∧ EngineDid s t := by
  cases hp : s.phase with
  | idle => exact ⟨s, by simp [engineStep, hp], .wait⟩
  | gen =>
    match hg : s.gen with
    | .fresh => exact ⟨_, by simp [engineStep, hp, hg], .genStart hp hg⟩
    | .visiting [] =>
      exact ⟨_, by simp [engineStep, hp, hg], .finish .gen .none hp rfl (fun _ => ⟨[], hg, fun _ => rfl⟩)⟩
    | .visiting (it :: rest) =>
      cases hl : isInternal (memRead s it.node) with
      | true => exact ⟨_, engineStep_genInternal hp hg hl, genInternal_did hp hg hl⟩
      | false => exact ⟨_, engineStep_genLeaf hp hg hl, genLeaf_did hp hg hl⟩
  | pack => exact ⟨_, by simp [engineStep, hp], packPass_did hp⟩
  | unpack =>
    by_cases hc : s.cnt = s.nsym
    · exact ⟨_, by simp [engineStep, hp, hc], .finish .unpack .none hp rfl nofun⟩
    · cases hl : isInternal (memRead s s.cur) with
      | true => exact ⟨_, engineStep_unpackInternal hp hc hl, unpackInternal_did hp hc hl _ _⟩
      | false => exact ⟨_, engineStep_unpackLeaf hp hc hl, .unpackLeaf hp hc⟩
  | drain op =>
    by_cases ho : s.oq = []
    · exact ⟨_, by simp [engineStep, hp, ho], .complete op hp ho⟩
    · exact ⟨s, by simp [engineStep, hp, ho], .wait⟩

theorem engineDid_of_engineStep {s t : State} (h : engineStep s = .next t) : EngineDid s t := by
  obtain ⟨u, hu, hd⟩ := engineStep_answers s
  cases hu.symm.trans h
  exact hd

/-- The flush changes the accumulator and OQ only. -/
theorem flush_eq (s : State) : ∃ q a f, flush s = { s with oq := q, acc := a, fill := f } := by
  rcases flush_cases s with ⟨-, e⟩ | ⟨-, e⟩
  · exact ⟨s.oq, s.acc, s.fill, e⟩
  · exact ⟨_, _, _, e⟩

/-! ## The host's writes -/

/-- A write is dropped, or acted on while idle, or is SRST. -/
theorem exec_regwr_cases {r : Reg} {v : Word} {s t : State} (h : exec (.regwr r v) s = .next t) :
    t = s ∨ (s.phase = .idle ∧ t = writeReg r v s) ∨ (r = .cmd ∧ v = 0x00000005#32 ∧ t = resetEvent s) := by
  cases h
  by_cases ha : writeAccepted r v s = true
  · rw [if_pos ha]
    rcases writeAccepted_iff.mp ha with hp | ⟨rfl, rfl⟩
    · exact .inr (.inl ⟨hp, rfl⟩)
    · exact .inr (.inr ⟨rfl, rfl, rfl⟩)
  · exact .inl (if_neg ha)

/-- INVARIANTS, THE INDUCTION SAID ONCE: what every atomic change of the state keeps, every step keeps. -/
theorem step_keeps {P : State → Prop}
    (world : ∀ s n e, P s → P { s with freeReads := n, env := e })
    (write : ∀ {s r} v, P s → s.phase = .idle → r ≠ .cmd → P (writeReg r v s))
    (command : ∀ {s} c, P s → s.phase = .idle → P (performCommand c s))
    (reset : ∀ {s}, P s → P (resetEvent s))
    (sink : ∀ {s}, P s → P (sinkTransfer s))
    (engine : ∀ {s t}, P s → EngineDid s t → P t) {s t : State} (h : P s) (hstep : step s = .next t) : P t := by
  have hs (es : List Event) : P (setEvents es s) := world s _ _ h
  have regwr {u r v} (hu : P u) (ht : exec (.regwr r v) u = .next t) : P t := by
    rcases exec_regwr_cases ht with rfl | ⟨hp, rfl⟩ | ⟨-, -, rfl⟩
    · exact hu
    · by_cases hr : r = .cmd
      · subst hr; exact command _ hu hp
      · exact write v hu hp hr
    · exact reset hu
  cases step_made hstep with
  | command es w _ ht => exact regwr (hs es) ht
  | write es tuple r v _ _ _ ht => exact regwr (hs es) ht
  | read es r ht =>
    cases ht
    obtain ⟨n, e⟩ := afterRead_eq r (setEvents es s)
    rw [e]; exact world (setEvents es s) n _ (hs es)
  | reset es _ ht => exact ht ▸ reset (hs es)
  | engine es ht => exact engine (hs es) (engineDid_of_engineStep ht)
  | sink es ht => exact ht ▸ sink (hs es)
  | world e ht => exact ht ▸ world s _ _ h

/-- The word of a decoded command (30_encoding.md rule R101). -/
theorem encode_of_decodeCommand {w : Word} {c : Command} (h : decodeCommand w = some c) :
    encode (.ofCommand c) = .cmd w := by
  unfold decodeCommand at h
  split_ifs at h with h0 h1 h2 h3 h4 h5 <;> cases h <;> simp [encode, Instr.ofCommand, *]

/-- The register port's tuple that names TM_DATA in a write. -/
theorem decodePort_regwr_tmData {tuple : BitVec 6} {v w : Word} (h : decodePort tuple v = .regwr .tmData w) :
    tuple = 0b100111#6 := by
  unfold decodePort at h
  split at h
  · injection h with hr
    revert hr; revert tuple; decide
  · cases h

/-! ## The state invariant (rule R61) -/

/-- The invariant says nothing of the world, nor of the counter of free values. -/
theorem StateInv.withWorld {s : State} (h : StateInv s) (n : Nat) (e : Env) :
    StateInv { s with freeReads := n, env := e } := { h with }

/-- The reset event makes the invariant true, the memories being in their canonical form. -/
theorem stateInv_resetEvent {s : State} (htm : Memory.wf s.tm = true) (hlut : CodeTable.wf s.lut = true) :
    StateInv (resetEvent s) where
  doneIdle := nofun
  errDone := by simp
  idleOq _ := rfl
  genOq := nofun
  accLow := by simp
  bitsLe := by simp
  cntLe := nofun
  genCntFresh := nofun
  genCnt := nofun
  genInvalid := nofun
  drainErr := nofun
  workFresh _ := rfl
  workStack := nofun
  tmWf := htm
  lutWf := hlut

theorem StateInv.resetEvent {s : State} (h : StateInv s) : StateInv (resetEvent s) :=
  stateInv_resetEvent h.tmWf h.lutWf

/-- A write to a register other than CMD, while idle. -/
theorem StateInv.writeReg {s : State} (h : StateInv s) (hp : s.phase = .idle) {r : Reg} (hr : r ≠ .cmd) (v : Word) :
    StateInv (writeReg r v s) := by
  cases r with
  | cmd => exact absurd rfl hr
  | irqen | tmAddr | lutSym => exact { h with }
  | status | cnt | lutLen | lutBits _ | reserved _ => exact h
  | root => exact { h with genInvalid := fun _ => rfl }
  | nsym => exact { h with cntLe := by simp [Machine.writeReg, hp, runningOp] }
  | tmData => exact { h with genInvalid := fun _ => rfl, tmWf := Memory.wf_put _ _ h.tmWf }

/-- A command, or an illegal word, while idle. -/
theorem StateInv.performCommand {s : State} (h : StateInv s) (hp : s.phase = .idle) (c : Option Command) :
    StateInv (performCommand c s) := by
  have hoq : s.oq = [] := h.idleOq hp
  have hgen : s.gen = .fresh := h.workFresh (by simp [hp])
  match c with
  | some .nop => exact h
  | some .srst => exact h.resetEvent
  | some .clr => exact { h with doneIdle := nofun, errDone := by simp [Machine.performCommand] }
  | none => exact { h with doneIdle := fun _ => hp, errDone := fun _ => rfl }
  | some .gen =>
    exact { h with
      doneIdle := nofun, errDone := by simp [Machine.performCommand, acceptGen], idleOq := nofun
      genOq := fun _ => hoq, cntLe := nofun, genCntFresh := fun _ _ => rfl
      genCnt := fun _ hv => absurd rfl (hv rfl), genInvalid := fun _ => rfl, drainErr := nofun
      workFresh := fun _ => rfl, workStack := nofun }
  | some .pack =>
    exact { h with
      doneIdle := nofun, errDone := by simp [Machine.performCommand, acceptPack], idleOq := nofun
      genOq := nofun, accLow := rfl, cntLe := by simp [Machine.performCommand, acceptPack]
      genCntFresh := nofun, genCnt := nofun, genInvalid := nofun, drainErr := nofun
      workFresh := fun _ => hgen }
  | some .unpack =>
    exact { h with
      doneIdle := nofun, errDone := by simp [Machine.performCommand, acceptUnpack], idleOq := nofun
      genOq := nofun, bitsLe := by simp [Machine.performCommand, acceptUnpack]
      cntLe := by simp [Machine.performCommand, acceptUnpack]
      genCntFresh := nofun, genCnt := nofun, genInvalid := nofun, drainErr := nofun
      workFresh := fun _ => hgen }

/-- A transfer to the sink; while OQ must be empty there is none. -/
theorem StateInv.sinkTransfer {s : State} (h : StateInv s) : StateInv (sinkTransfer s) := by
  rcases sinkTransfer_cases s with ⟨-, e⟩ | ⟨b, rest, ho, e⟩ <;> rw [e]
  · exact h
  · exact { h with
      idleOq := fun hp => by simp [h.idleOq hp] at ho
      genOq := fun hp => by simp [h.genOq hp] at ho }

/-- The end of an operation: it stops in DRAIN, with an error it can raise. -/
theorem StateInv.finish {s : State} (h : StateInv s) {op : Op} {e : ErrCode} (hp : s.phase = op.phase)
    (he : mayRaise op e = true) (hg : op = .gen → s.gen ≠ .fresh) : StateInv (finish op e s) := by
  have hrun : runningOp s.phase = some op := by simp [hp]
  have hdone : s.done ≠ true := fun hd => opPhase_ne_idle op (hp ▸ h.doneIdle hd)
  exact { h with
    doneIdle := fun hd => absurd hd hdone
    idleOq := nofun
    genOq := fun hr => h.genOq (hrun.trans hr)
    cntLe := fun hr => h.cntLe (hrun ▸ hr)
    genCntFresh := nofun
    genCnt := fun hr _ => h.genCnt (hrun.trans hr) (fun _ => hg (Option.some.inj hr))
    genInvalid := fun hr => h.genInvalid (hrun.trans hr)
    drainErr := fun _ hd => by cases hd; exact he
    workFresh := fun _ => rfl
    workStack := nofun }

/-- The completion step. -/
theorem StateInv.complete {s : State} (h : StateInv s) {op : Op} (hp : s.phase = .drain op) (ho : s.oq = []) :
    StateInv (complete op s) :=
  { h with
    doneIdle := fun _ => rfl, errDone := fun _ => rfl, idleOq := fun _ => ho, genOq := nofun, cntLe := nofun
    genCntFresh := nofun, genCnt := nofun, genInvalid := nofun, drainErr := nofun
    workFresh := fun _ => h.workFresh (by simp [hp]) }

/-! ### GEN's steps -/

theorem StateInv.genStart {s : State} (h : StateInv s) (hp : s.phase = .gen) (hg : s.gen = .fresh) :
    StateInv (genStart s) :=
  { h with
    genCntFresh := nofun
    genCnt := fun _ _ => by simp [Machine.genStart, h.genCntFresh hp hg]
    workFresh := fun hn => absurd hp hn
    workStack := fun st hst => by cases hst; simp [stackOk]
    lutWf := rfl }

/-- Below the next node the stack is a stack again. -/
theorem stackOk_tail {it : GenItem} {rest : List GenItem} (h : stackOk (it :: rest)) : stackOk rest := by
  obtain ⟨hlt, hle⟩ := h
  cases rest with
  | nil => trivial
  | cons a rest =>
    obtain ⟨ha, hrest⟩ := List.pairwise_cons.mp hlt
    exact ⟨hrest, fun r hr => ⟨(hle r (.tail _ hr)).1, Nat.le_of_lt (ha r hr)⟩⟩

/-- Two children, one longer than their parent, in its place. -/
theorem stackOk_children {it a b : GenItem} {rest : List GenItem} (h : stackOk (it :: rest))
    (ha : a.len.toNat = it.len.toNat + 1) (hb : b.len.toNat = it.len.toNat + 1) : stackOk (a :: b :: rest) := by
  obtain ⟨hlt, hle⟩ := h
  refine ⟨List.pairwise_cons.mpr ⟨fun r hr => ?_, hlt⟩, fun r hr => ?_⟩
  · have := (hle r hr).2; omega
  · rcases List.mem_cons.mp hr with rfl | hr
    · omega
    · have := hle r hr; omega

/-- The length of a path one edge longer, below the limit. -/
theorem toNat_succ_of_ne_maxLen {len : CodeLen} (h : len ≠ Config.maxLen) : (len + 1#8).toNat = len.toNat + 1 := by
  have hne : len.toNat ≠ 255 := fun e => h (BitVec.eq_of_toNat_eq e)
  have := len.isLt
  simp only [BitVec.toNat_add, BitVec.toNat_ofNat]
  omega

theorem StateInv.genRecord {s : State} (h : StateInv s) {it : GenItem} {rest : List GenItem} {sym : Sym}
    (hp : s.phase = .gen) (hg : s.gen = .visiting (it :: rest)) (hn : cellGet s.lut sym.toNat = none) (c : Code) :
    StateInv { s with lut := cellPut s.lut sym.toNat c, cnt := s.cnt + 1#32, gen := .visiting rest } := by
  have hcnt : s.cnt.toNat = s.lut.length := h.genCnt (by simp [hp, runningOp]) (by simp [hg])
  have hlen : s.lut.length ≤ 256 := cells_length_le h.lutWf
  exact { h with
    cntLe := by simp [hp, runningOp]
    genCntFresh := nofun
    genCnt := fun _ _ => by
      rw [cellPut_length hn, ← hcnt, BitVec.toNat_add, BitVec.toNat_ofNat]
      omega
    workFresh := fun hne => absurd hp hne
    workStack := fun st hst => by cases hst; exact stackOk_tail (h.workStack _ hg)
    lutWf := CodeTable.wf_put sym c h.lutWf }

theorem StateInv.genPush {s : State} (h : StateInv s) {it a b : GenItem} {rest : List GenItem}
    (hp : s.phase = .gen) (hg : s.gen = .visiting (it :: rest)) (ha : a.len.toNat = it.len.toNat + 1)
    (hb : b.len.toNat = it.len.toNat + 1) : StateInv { s with gen := .visiting (a :: b :: rest) } :=
  { h with
    genCntFresh := nofun
    genCnt := fun hr _ => h.genCnt hr (by simp [hg])
    workFresh := fun hne => absurd hp hne
    workStack := fun st hst => by cases hst; exact stackOk_children (h.workStack _ hg) ha hb }

/-! ### PACK's steps -/

/-- A bit set at position `i` leaves the positions below it as they were. -/
theorem getLsbD_setBit_of_lt {a : Byte} {i k : Nat} (b : Bool) (hk : k < i) (hi : i < 8) :
    (setBit a i b).getLsbD k = a.getLsbD k := by
  simp [setBit, hk, show k < 8 by omega]

theorem setBit_shiftLeft_eq_zero {a : Byte} {i : Nat} (b : Bool) (hi : i < 8) (h : a <<< (7 - i) = 0#8) :
    setBit a i b <<< (8 - i) = 0#8 := by
  refine BitVec.eq_of_getLsbD_eq fun j hj => ?_
  by_cases hlow : j < 8 - i
  · simp [hlow]
  · have ha := congrArg (fun x => x.getLsbD (j - 1)) h
    have hshift : j - 1 - (7 - i) = j - (8 - i) := by omega
    simp only [BitVec.getLsbD_shiftLeft, hshift, show j - 1 < 8 by omega, show ¬ j - 1 < 7 - i by omega] at ha
    rw [BitVec.getLsbD_shiftLeft, getLsbD_setBit_of_lt b (by omega) hi]
    simpa [hj, hlow] using ha

/-- Appending a bit keeps the free positions of the accumulator 0 (rule R61 e). -/
theorem putBit_accLow {w : BitWriter} (h : w.acc <<< w.fill.toNat = 0#8) (b : Bool) :
    (putBit w b).acc <<< (putBit w b).fill.toNat = 0#8 := by
  unfold putBit
  by_cases hf : w.fill = 7#3
  · simp [hf]
  · have hne : w.fill.toNat ≠ 7 := fun e => hf (BitVec.eq_of_toNat_eq e)
    have hlt := w.fill.isLt
    have hfill : (w.fill + 1#3).toNat = 8 - (7 - w.fill.toNat) := by
      simp only [BitVec.toNat_add, BitVec.toNat_ofNat]; omega
    simp only [hf, if_false, hfill]
    exact setBit_shiftLeft_eq_zero b (by omega) (by rw [show 7 - (7 - w.fill.toNat) = w.fill.toNat by omega, h])

theorem putBits_accLow {w : BitWriter} (h : w.acc <<< w.fill.toNat = 0#8) (bits : List Bool) :
    (putBits w bits).acc <<< (putBits w bits).fill.toNat = 0#8 := by
  induction bits generalizing w with
  | nil => exact h
  | cons b bits ih => exact ih (putBit_accLow h b)

/-- One more symbol counted, below the number asked for. -/
theorem toNat_succ_le {c n : Word} (hle : c.toNat ≤ n.toNat) (hne : c ≠ n) : (c + 1#32).toNat ≤ n.toNat := by
  have : c.toNat ≠ n.toNat := fun e => hne (BitVec.eq_of_toNat_eq e)
  rw [BitVec.toNat_add, BitVec.toNat_ofNat]
  omega

theorem flush_phase (s : State) : (flush s).phase = s.phase := by
  obtain ⟨q, a, f, e⟩ := flush_eq s
  rw [e]

theorem StateInv.flush {s : State} (h : StateInv s) (hp : s.phase = .pack) : StateInv (flush s) := by
  rcases flush_cases s with ⟨-, e⟩ | ⟨-, e⟩ <;> rw [e]
  · exact h
  · exact { h with idleOq := by simp [hp], genOq := by simp [hp, runningOp], accLow := rfl }

theorem StateInv.packSymbol {s : State} (h : StateInv s) (hp : s.phase = .pack) (hc : s.cnt ≠ s.nsym)
    (e : LutEntry) : StateInv (packSymbol e s) :=
  { h with
    idleOq := by simp [Machine.packSymbol, hp]
    genOq := by simp [Machine.packSymbol, hp, runningOp]
    accLow := putBits_accLow (w := ⟨s.acc, s.fill, []⟩) h.accLow _
    cntLe := fun hr => toNat_succ_le (h.cntLe hr) hc
    genCntFresh := by simp [Machine.packSymbol, hp]
    genCnt := by simp [Machine.packSymbol, hp, runningOp] }

/-! ### UNPACK's steps -/

theorem StateInv.unpackLeaf {s : State} (h : StateInv s) (hp : s.phase = .unpack) (hc : s.cnt ≠ s.nsym)
    (sym : Sym) : StateInv (unpackLeaf sym s) :=
  { h with
    idleOq := by simp [Machine.unpackLeaf, hp]
    genOq := by simp [Machine.unpackLeaf, hp, runningOp]
    cntLe := fun hr => toNat_succ_le (h.cntLe hr) hc
    genCntFresh := by simp [Machine.unpackLeaf, hp]
    genCnt := by simp [Machine.unpackLeaf, hp, runningOp] }

theorem StateInv.fetchByte {s : State} (h : StateInv s) (b : Byte) : StateInv (fetchByte b s) :=
  { h with bitsLe := Nat.le_refl 8 }

theorem StateInv.unpackBit {s : State} (h : StateInv s) (hb : s.bitsLeft ≠ 0#4) (low high : NodeIdx) :
    StateInv (unpackBit low high s) := by
  have hle := h.bitsLe
  have hne : s.bitsLeft.toNat ≠ 0 := fun e => hb (BitVec.eq_of_toNat_eq e)
  have hlt : (s.bitsLeft - 1#4).toNat ≤ 8 := by
    rw [BitVec.toNat_sub, BitVec.toNat_ofNat]; omega
  exact { h with bitsLe := hlt }

/-! ### Every step -/

/-- Every turn of the engine keeps the invariant. -/
theorem StateInv.engine {s t : State} (h : StateInv s) (hd : EngineDid s t) : StateInv t := by
  cases hd with
  | wait => exact h
  | genStart hp hg => exact h.genStart hp hg
  | genRecord it rest hp hg hl hn => exact h.genRecord hp hg hn _
  | genPush it rest hp hg hl hlen =>
    exact h.genPush hp hg (toNat_succ_of_ne_maxLen hlen) (toNat_succ_of_ne_maxLen hlen)
  | finish op e hp he hg =>
    exact h.finish hp he fun ho hf => by obtain ⟨st, hst, -⟩ := hg ho; simp [hst] at hf
  | packFlush hp => exact (h.flush hp).finish ((flush_phase s).trans hp) rfl nofun
  | packNoCode hp _ b _ => exact (h.withWorld _ _).finish (s := takeByte s) hp rfl nofun
  | packSymbol hp _ hc b _ => exact StateInv.packSymbol (s := takeByte s) (h.withWorld _ _) hp hc _
  | unpackLeaf hp hc => exact h.unpackLeaf hp hc _
  | unpackBit low high _ hb => exact h.unpackBit hb low high
  | unpackFetch low high _ _ b _ => exact (h.fetchByte b).unpackBit (by simp [Machine.fetchByte]) low high
  | complete op hp ho => exact h.complete hp ho

/-- Settles O3: one lemma per change of state. -/
theorem everyStepKeepsTheStateInvariant : Obligations.EveryStepKeepsTheStateInvariant := fun _ _ =>
  step_keeps (P := StateInv) (fun _ n e h => h.withWorld n e) (fun v h hp hr => h.writeReg hp hr v)
    (fun c h hp => h.performCommand hp c) StateInv.resetEvent StateInv.sinkTransfer StateInv.engine

/-! ## Paths and their codes -/

theorem walk_append (rd : NodeIdx → NodeWord) (i : NodeIdx) (p q : List Bool) :
    walk rd i (p ++ q) = (walk rd i p).bind (fun j => walk rd j q) := by
  induction p generalizing i with
  | nil => rfl
  | cons b p ih =>
    simp only [List.cons_append, walk]
    split
    · exact ih _
    · rfl

/-- The rest of a walk, from the node its first part reaches. -/
theorem walk_append_of_walk {rd : NodeIdx → NodeWord} {i j : NodeIdx} {p : List Bool} (h : walk rd i p = some j)
    (q : List Bool) : walk rd i (p ++ q) = walk rd j q := by
  rw [walk_append, h]; rfl

/-- One edge further, from an Internal word. -/
theorem walk_snoc {rd : NodeIdx → NodeWord} {i j : NodeIdx} {p : List Bool} (h : walk rd i p = some j)
    (hj : isInternal (rd j) = true) (b : Bool) : walk rd i (p ++ [b]) = some (childOf b (rd j)) := by
  rw [walk_append_of_walk h]; simp [walk, hj]

/-- A walk ends at a Leaf. -/
theorem walk_of_leaf {rd : NodeIdx → NodeWord} {i j : NodeIdx} {p : List Bool} (hi : isInternal (rd i) = false)
    (h : walk rd i p = some j) : p = [] := by
  cases p with
  | nil => rfl
  | cons b p => simp [walk, hi] at h

theorem pathValue_snoc (p : List Bool) (b : Bool) : pathValue (p ++ [b]) = appendPath (pathValue p) b := by
  simp [pathValue]

/-! ## GEN's invariant on the stack and the table (rule R57) -/

section
variable {rd : NodeIdx → NodeWord} {root : NodeIdx} {t : CodeTable}

/-- A pending node carries the code of its path. -/
theorem ItemAt.code {p : List Bool} {it : GenItem} (h : ItemAt rd root p it) :
    ({ len := it.len, value := it.path } : Code) = codeOfPath p := by
  obtain ⟨-, -, hpath, hlen⟩ := h
  simp [codeOfPath, hpath, ← hlen]

/-- A child of a pending Internal node is reached by the path one bit longer. -/
theorem ItemAt.child {p : List Bool} {it : GenItem} (h : ItemAt rd root p it)
    (hi : isInternal (rd it.node) = true) (hlen : it.len ≠ Config.maxLen) (b : Bool) :
    ItemAt rd root (p ++ [b])
      { node := childOf b (rd it.node), path := appendPath it.path b, len := it.len + 1#8 } := by
  obtain ⟨hw, hp, hpath, hl⟩ := h
  have hsucc := toNat_succ_of_ne_maxLen hlen
  have := (it.len + 1#8).isLt
  exact ⟨walk_snoc hw hi b, by simp; omega, by rw [hpath, pathValue_snoc], by simp [hsucc, hl]⟩

/-- At GEN's first statement every path passes through ROOT, and nothing is recorded. -/
theorem Visiting.start : Visiting rd root [{ node := root, path := 0#255, len := 0#8 }] [] where
  items it hit := by
    obtain rfl := List.mem_singleton.mp hit
    exact ⟨[], rfl, by simp, rfl, rfl⟩
  covered p i _ := .inl ⟨_, List.mem_singleton_self _, [], p, rfl, rfl, by simp, rfl, rfl⟩
  sound := nofun

/-- The Leaf on top is recorded under a symbol not listed yet. -/
theorem Visiting.record {it : GenItem} {rest : List GenItem} (h : Visiting rd root (it :: rest) t)
    (hl : isInternal (rd it.node) = false) (hn : cellGet t (symOf (rd it.node)).toNat = none) :
    Visiting rd root rest
      (cellPut t (symOf (rd it.node)).toNat { len := it.len, value := it.path }) where
  items r hr := h.items r (.tail _ hr)
  covered p i hw := by
    rcases h.covered p i hw with ⟨r, hr, pre, post, rfl, hat⟩ | ⟨hle, hrec⟩
    · rcases List.mem_cons.mp hr with rfl | hr
      · -- the path ends at the Leaf just recorded
        have ⟨hpre, hle, _⟩ := hat
        rw [walk_append_of_walk hpre] at hw
        obtain rfl := walk_of_leaf hl hw
        obtain rfl := Option.some.inj hw
        rw [List.append_nil]
        exact .inr ⟨hle, fun _ => by rw [cellGet_cellPut_same, hat.code]⟩
      · exact .inl ⟨r, hr, pre, post, rfl, hat⟩
    · refine .inr ⟨hle, fun hi => ?_⟩
      have hget := hrec hi
      rw [cellGet_cellPut_other _ _ fun e => by simp [e, hn] at hget]
      exact hget
  sound sym c hget := by
    rw [cellGet_cellPut] at hget
    split at hget
    · next hsym =>
      obtain ⟨p, hat⟩ := h.items it (.head _)
      exact ⟨p, ⟨_, hat.1, hl, (BitVec.eq_of_toNat_eq hsym).symm⟩, (Option.some.inj hget).symm.trans hat.code⟩
    · exact h.sound sym c hget

/-- The Internal node on top gives way to its two children. -/
theorem Visiting.push {it : GenItem} {rest : List GenItem} (h : Visiting rd root (it :: rest) t)
    (hi : isInternal (rd it.node) = true) (hlen : it.len ≠ Config.maxLen) :
    Visiting rd root
      ({ node := lowOf (rd it.node), path := appendPath it.path false, len := it.len + 1#8 } ::
       { node := highOf (rd it.node), path := appendPath it.path true, len := it.len + 1#8 } :: rest) t where
  items r hr := by
    obtain ⟨p, hat⟩ := h.items it (.head _)
    rcases List.mem_cons.mp hr with rfl | hr
    · exact ⟨_, hat.child hi hlen false⟩
    · rcases List.mem_cons.mp hr with rfl | hr
      · exact ⟨_, hat.child hi hlen true⟩
      · exact h.items r (.tail _ hr)
  covered p i hw := by
    rcases h.covered p i hw with ⟨r, hr, pre, post, rfl, hat⟩ | hrec
    · rcases List.mem_cons.mp hr with rfl | hr
      · match post with
        | [] =>
          -- the path ends at the Internal node itself
          obtain ⟨hpre, hle, -⟩ := hat
          rw [List.append_nil, hpre] at hw
          obtain rfl := Option.some.inj hw
          exact .inr ⟨by simpa using hle, fun hl => by simp [hi] at hl⟩
        | false :: post => exact .inl ⟨_, .head _, pre ++ [false], post, by simp, hat.child hi hlen false⟩
        | true :: post => exact .inl ⟨_, .tail _ (.head _), pre ++ [true], post, by simp, hat.child hi hlen true⟩
      · exact .inl ⟨r, .tail _ (.tail _ hr), pre, post, rfl, hat⟩
    · exact .inr hrec
  sound := h.sound

/-- With no node left to visit the table is the tree's. -/
theorem Visiting.tableOf (h : Visiting rd root [] t) : TableOf rd root t := by
  have done (p i) (hw : walk rd root p = some i) : p.length ≤ 255 ∧
      (isInternal (rd i) = false → cellGet t (symOf (rd i)).toNat = some (codeOfPath p)) := by
    rcases h.covered p i hw with ⟨_, hit, -⟩ | hrec
    · cases hit
    · exact hrec
  refine ⟨fun p i hw => (done p i hw).1, fun p sym hlead => ?_, h.sound⟩
  obtain ⟨i, hw, hl, rfl⟩ := hlead
  exact (done p i hw).2 hl

end

/-! ## The table invariant (rule R57) -/

theorem TableInv.withWorld {s : State} (h : TableInv s) (n : Nat) (e : Env) :
    TableInv { s with freeReads := n, env := e } := { h with }

/-- Idle with no valid table there is nothing to say. -/
theorem TableInv.of_idle_invalid {s : State} (hp : s.phase = .idle) (hv : s.lutValid = false) : TableInv s where
  valid h := by simp [hv] at h
  visiting h := by simp [hp] at h
  drained h := by simp [hp] at h

theorem TableInv.writeReg {s : State} (h : TableInv s) (hp : s.phase = .idle) {r : Reg} (hr : r ≠ .cmd) (v : Word) :
    TableInv (writeReg r v s) := by
  cases r with
  | cmd => exact absurd rfl hr
  | irqen | nsym | tmAddr | lutSym => exact { h with }
  | status | cnt | lutLen | lutBits _ | reserved _ => exact h
  | root | tmData => exact .of_idle_invalid hp rfl

theorem TableInv.performCommand {s : State} (h : TableInv s) (c : Option Command) : TableInv (performCommand c s) := by
  match c with
  | some .nop => exact h
  | some .srst => exact .of_idle_invalid rfl rfl
  | some .clr | none => exact { h with }
  | some .gen => exact { valid := nofun, visiting := nofun, drained := nofun }
  | some .pack | some .unpack => exact { h with visiting := nofun, drained := nofun }

theorem TableInv.sinkTransfer {s : State} (h : TableInv s) : TableInv (sinkTransfer s) := by
  rcases sinkTransfer_cases s with ⟨-, e⟩ | ⟨b, rest, -, e⟩ <;> rw [e]
  · exact h
  · exact { h with }

/-- The end of an operation; a GEN without error has no node left to visit. -/
theorem TableInv.finish {s : State} (h : TableInv s) {op : Op} {e : ErrCode}
    (hg : op = .gen → e = .none → TableOf (memRead s) s.root s.lut) : TableInv (finish op e s) where
  valid := h.valid
  visiting := nofun
  drained hp he := hg (by cases hp; rfl) he

theorem TableInv.complete {s : State} (h : TableInv s) {op : Op} (hp : s.phase = .drain op) :
    TableInv (complete op s) where
  valid hv := by
    rcases lutValidAfter_true hv with ⟨rfl, he⟩ | hv
    · exact h.drained hp he
    · exact h.valid hv
  visiting := nofun
  drained := nofun

/-- GEN at work: no table is valid yet. -/
theorem TableInv.of_visiting {s : State} (hp : s.phase = .gen) (hv : s.lutValid = false) {st : List GenItem}
    (hg : s.gen = .visiting st) (h : Visiting (memRead s) s.root st s.lut) : TableInv s where
  valid hv' := by simp [hv] at hv'
  visiting _ st' hg' := by cases hg.symm.trans hg'; exact h
  drained hp' := by simp [hp] at hp'

/-- Every turn of the engine keeps the table invariant. -/
theorem TableInv.engine {s t : State} (hs : StateInv s) (h : TableInv s) (hd : EngineDid s t) : TableInv t := by
  have invalid (hp : s.phase = .gen) : s.lutValid = false := hs.genInvalid (by simp [hp, runningOp])
  cases hd with
  | wait => exact h
  | genStart hp hg => exact .of_visiting hp (invalid hp) rfl .start
  | genRecord it rest hp hg hl hn => exact .of_visiting hp (invalid hp) rfl ((h.visiting hp _ hg).record hl hn)
  | genPush it rest hp hg hi hlen => exact .of_visiting hp (invalid hp) rfl ((h.visiting hp _ hg).push hi hlen)
  | finish op e hp he hg =>
    refine h.finish fun ho hne => ?_
    obtain ⟨st, hst, hnil⟩ := hg ho
    obtain rfl := hnil hne
    exact (h.visiting (by rw [hp, ho]; rfl) _ hst).tableOf
  | packFlush hp =>
    refine TableInv.finish ?_ nofun
    obtain ⟨q, a, f, e⟩ := flush_eq s
    rw [e]; exact { h with }
  | packNoCode hp _ b _ => exact (h.withWorld _ _).finish (s := takeByte s) nofun
  | packSymbol | unpackLeaf | unpackBit | unpackFetch => exact { h with }
  | complete op hp ho => exact h.complete hp

/-- Settles O5: GEN's traversal carries `Visiting` from its start to an empty stack, and only writes that clear
LUT_VALID touch what a valid table depends on. The state invariant goes along: GEN's steps need LUT_VALID = 0. -/
theorem everyStepKeepsTheTableInvariant : Obligations.EveryStepKeepsTheTableInvariant := fun _ _ hinv htab hstep =>
  (step_keeps (P := fun s => StateInv s ∧ TableInv s)
    (fun _ n e ⟨hs, h⟩ => ⟨hs.withWorld n e, h.withWorld n e⟩)
    (fun v ⟨hs, h⟩ hp hr => ⟨hs.writeReg hp hr v, h.writeReg hp hr v⟩)
    (fun c ⟨hs, h⟩ hp => ⟨hs.performCommand hp c, h.performCommand c⟩)
    (fun ⟨hs, _⟩ => ⟨hs.resetEvent, .of_idle_invalid rfl rfl⟩)
    (fun ⟨hs, h⟩ => ⟨hs.sinkTransfer, h.sinkTransfer⟩)
    (fun ⟨hs, h⟩ hd => ⟨hs.engine hd, h.engine hs hd⟩) ⟨hinv, htab⟩ hstep).2

/-! ## A valid table is the tree's (rules R18 and R57) -/

theorem toNat_codeOfPath_len {p : List Bool} (hp : p.length ≤ 255) : (codeOfPath p).len.toNat = p.length := by
  simp [codeOfPath]; omega

theorem getLsbD_appendPath_zero (v : CodeVal) (b : Bool) : (appendPath v b).getLsbD 0 = b := by
  simp [appendPath]

theorem getLsbD_appendPath_succ (v : CodeVal) (b : Bool) {k : Nat} (hk : k + 1 < 255) :
    (appendPath v b).getLsbD (k + 1) = v.getLsbD k := by
  simp [appendPath, hk, BitVec.getLsbD_eq_getElem (show k < 255 by omega)]

/-- The bits of a path come back from its value (30_encoding.md rule R109). -/
theorem bits_pathValue {p : List Bool} (hp : p.length ≤ 255) :
    (List.range p.length).map (fun k => (pathValue p).getLsbD (p.length - 1 - k)) = p := by
  induction p using List.reverseRecOn with
  | nil => rfl
  | append_singleton p b ih =>
    have hlen : (p ++ [b]).length = p.length + 1 := by simp
    rw [hlen] at hp ⊢
    rw [List.range_succ, List.map_append, pathValue_snoc]
    congr 1
    · refine Eq.trans (List.map_congr_left fun k hk => ?_) (ih (by omega))
      have hk := List.mem_range.mp hk
      rw [show p.length + 1 - 1 - k = p.length - 1 - k + 1 by omega, getLsbD_appendPath_succ _ _ (by omega)]
    · simpa using getLsbD_appendPath_zero (pathValue p) b

theorem codeBits_codeOfPath {p : List Bool} (hp : p.length ≤ 255) :
    codeBits (codeOfPath p).len (codeOfPath p).value = p := by
  unfold codeBits
  rw [toNat_codeOfPath_len hp]
  exact bits_pathValue hp

/-- Two paths with one code are one path. -/
theorem codeOfPath_inj {p q : List Bool} (hp : p.length ≤ 255) (hq : q.length ≤ 255)
    (h : codeOfPath p = codeOfPath q) : p = q := by
  rw [← codeBits_codeOfPath hp, h, codeBits_codeOfPath hq]

section
variable {rd : NodeIdx → NodeWord} {root : NodeIdx} {t : CodeTable}

/-- Where no path is longer than 255, every path goes on to a Leaf. -/
theorem exists_leaf_below (h : ∀ p i, walk rd root p = some i → p.length ≤ 255) {p : List Bool} {i : NodeIdx}
    (hw : walk rd root p = some i) :
    ∃ q j, walk rd root (p ++ q) = some j ∧ isInternal (rd j) = false := by
  cases hi : isInternal (rd i) with
  | false => exact ⟨[], i, by rw [List.append_nil, hw], hi⟩
  | true =>
    have hw' := walk_snoc hw hi false
    have hle := h _ _ hw'
    obtain ⟨q, j, hq, hj⟩ := exists_leaf_below h hw'
    exact ⟨false :: q, j, by simpa using hq, hj⟩
termination_by 255 - p.length
decreasing_by simp only [List.length_append, List.length_singleton] at hle ⊢; omega

/-- A symbol has one path, because the table has one code for it. -/
theorem TableOf.leadsTo_unique (h : TableOf rd root t) {p q : List Bool} {sym : Sym}
    (hp : leadsTo rd root p sym) (hq : leadsTo rd root q sym) : p = q := by
  have ⟨i, hi, _⟩ := hp
  have ⟨j, hj, _⟩ := hq
  exact codeOfPath_inj (h.bounded _ _ hi) (h.bounded _ _ hj)
    (Option.some.inj ((h.complete _ _ hp).symm.trans (h.complete _ _ hq)))

/-- A tree with a table is well formed. -/
theorem TableOf.treeWf (h : TableOf rd root t) : TreeWf rd root where
  onePath p q i hp hq := by
    -- both paths go on, with one and the same rest, to one Leaf
    obtain ⟨post, j, hpj, hj⟩ := exists_leaf_below h.bounded hp
    have hqj : walk rd root (q ++ post) = some j := by
      rw [walk_append_of_walk hq, ← walk_append_of_walk hp, hpj]
    exact List.append_cancel_right (h.leadsTo_unique ⟨j, hpj, hj, rfl⟩ ⟨j, hqj, hj, rfl⟩)
  bounded p i hp := by
    refine ⟨h.bounded _ _ hp, fun hlen => ?_⟩
    cases hi : isInternal (rd i) with
    | false => rfl
    | true =>
      have := h.bounded _ _ (walk_snoc hp hi false)
      simp [hlen] at this
  oneLeaf p q i j hp hq hi hj hsym := by
    obtain rfl := h.leadsTo_unique ⟨i, hp, hi, hsym⟩ ⟨j, hq, hj, rfl⟩
    exact Option.some.inj (hp.symm.trans hq)

end

theorem lookup_of_valid {s : State} (hv : s.lutValid = true) {sym : Sym} {c : Code}
    (h : cellGet s.lut sym.toNat = some c) : lookup s sym = ⟨true, c.len, c.value⟩ := by
  simp [lookup, hv, h]

theorem cellGet_of_lookup {s : State} {sym : Sym} (h : (lookup s sym).v = true) :
    ∃ c, cellGet s.lut sym.toNat = some c := by
  unfold lookup at h
  cases hv : s.lutValid <;> cases hc : cellGet s.lut sym.toNat <;> simp_all

/-- Settles O6: the table's codes determine the paths, so the tree is well formed. -/
theorem validTableIsTheTreesCodes : Obligations.ValidTableIsTheTreesCodes := by
  intro s h hv
  have ht := h.valid hv
  refine ⟨ht.treeWf, fun p sym hp => lookup_of_valid hv (ht.complete p sym hp), fun sym hno => ?_⟩
  refine Bool.eq_false_iff.mpr fun hl => ?_
  obtain ⟨c, hc⟩ := cellGet_of_lookup hl
  obtain ⟨p, hp, -⟩ := ht.sound sym c hc
  exact hno ⟨p, hp⟩

/-- Settles O9: in GEN CNT counts the table's entries, and a table in canonical form has at most 256. -/
theorem cntNeverExceedsItsBound : Obligations.CntNeverExceedsItsBound := by
  refine fun s h => ⟨h.cntLe, fun hr => ?_⟩
  by_cases hf : s.phase = .gen ∧ s.gen = .fresh
  · simp [h.genCntFresh hf.1 hf.2]
  · rw [h.genCnt hr fun hp hg => hf ⟨hp, hg⟩]
    exact cells_length_le h.lutWf

/-! ## What a turn of the engine leaves alone -/

section
variable {s t : State}

/-- The engine changes no operand (20_memory.md rule R86). -/
theorem EngineDid.operands (h : EngineDid s t) :
    t.tm = s.tm ∧ t.root = s.root ∧ t.nsym = s.nsym ∧ t.ie = s.ie ∧ t.tmAddr = s.tmAddr ∧
      t.lutSym = s.lutSym := by
  cases h with
  | packFlush => obtain ⟨q, a, f, e⟩ := flush_eq s; rw [e]; exact ⟨rfl, rfl, rfl, rfl, rfl, rfl⟩
  | _ => exact ⟨rfl, rfl, rfl, rfl, rfl, rfl⟩

/-- The status flags change in the completion step only. -/
theorem EngineDid.flags (h : EngineDid s t) :
    (t.done = s.done ∧ t.err = s.err ∧ t.lutValid = s.lutValid) ∨
      ∃ op, s.phase = .drain op ∧ s.oq = [] ∧ t = Machine.complete op s := by
  cases h with
  | packFlush => obtain ⟨q, a, f, e⟩ := flush_eq s; rw [e]; exact .inl ⟨rfl, rfl, rfl⟩
  | complete op hp ho => exact .inr ⟨op, hp, ho, rfl⟩
  | _ => exact .inl ⟨rfl, rfl, rfl⟩

/-- The table changes in GEN only. -/
theorem EngineDid.lut (h : EngineDid s t) (hp : s.phase ≠ .gen) : t.lut = s.lut := by
  cases h with
  | genStart hg | genRecord _ _ hg | genPush _ _ hg => exact absurd hg hp
  | packFlush => obtain ⟨q, a, f, e⟩ := flush_eq s; rw [e]; rfl
  | _ => rfl

/-- The engine moves PHASE from an operation to its DRAIN, and from DRAIN to IDLE (rule R48). -/
theorem EngineDid.phase (h : EngineDid s t) :
    t.phase = s.phase ∨ (∃ op, s.phase = op.phase ∧ t.phase = .drain op) ∨
      ∃ op, s.phase = .drain op ∧ s.oq = [] ∧ t = Machine.complete op s := by
  cases h with
  | finish op _ hp => exact .inr (.inl ⟨op, hp, rfl⟩)
  | packFlush hp | packNoCode hp => exact .inr (.inl ⟨.pack, hp, rfl⟩)
  | complete op hp ho => exact .inr (.inr ⟨op, hp, ho, rfl⟩)
  | _ => exact .inl rfl

/-- The engine takes the first offered byte while `in_ready` = 1, or none (rule R24). -/
theorem EngineDid.source (h : EngineDid s t) :
    t.env.source = s.env.source ∨ (inReady s = true ∧ ∃ b, s.env.source = b :: t.env.source) := by
  have taken {u : State} (hu : u.env.source = s.env.source.tail) {b : Byte} (hi : inNext s = .byte b) :
      ∃ b, s.env.source = b :: u.env.source := by
    obtain ⟨rest, hs⟩ := inNext_byte.mp hi
    exact ⟨b, by rw [hu, hs]; rfl⟩
  cases h with
  | packNoCode _ hr b hi | packSymbol _ hr _ b hi | unpackFetch _ _ _ hr b hi => exact .inr ⟨hr, taken rfl hi⟩
  | packFlush => obtain ⟨q, a, f, e⟩ := flush_eq s; rw [e]; exact .inl rfl
  | _ => exact .inl rfl

end

/-! ## What a write of the host leaves alone -/

theorem performCommand_tm (c : Option Command) (s : State) : (performCommand c s).tm = s.tm := by
  rcases c with _ | _ | _ | _ | _ | _ | _ <;> rfl

theorem performCommand_lut (c : Option Command) (s : State) : (performCommand c s).lut = s.lut := by
  rcases c with _ | _ | _ | _ | _ | _ | _ <;> rfl

/-- No command sets LUT_VALID. -/
theorem performCommand_lutValid {c : Option Command} {s : State} (h : (performCommand c s).lutValid = true) :
    s.lutValid = true := by
  rcases c with _ | _ | _ | _ | _ | _ | _
  case some.gen | some.srst => cases h
  all_goals exact h

/-- Only an illegal command sets DONE. -/
theorem performCommand_done {c : Option Command} {s : State} (h : (performCommand c s).done = true) :
    s.done = true ∨ performCommand c s = illegalCommand s := by
  rcases c with _ | _ | _ | _ | _ | _ | _
  case none => exact .inr rfl
  case some.nop => exact .inl h
  all_goals cases h

theorem writeReg_tm {r : Reg} (hr : r ≠ .tmData) (v : Word) (s : State) : (writeReg r v s).tm = s.tm := by
  cases r with
  | cmd => exact performCommand_tm _ s
  | tmData => exact absurd rfl hr
  | _ => rfl

theorem writeReg_lut (r : Reg) (v : Word) (s : State) : (writeReg r v s).lut = s.lut := by
  cases r with
  | cmd => exact performCommand_lut _ s
  | _ => rfl

/-- No write sets LUT_VALID. -/
theorem writeReg_lutValid {r : Reg} {v : Word} {s : State} (h : (writeReg r v s).lutValid = true) :
    s.lutValid = true := by
  cases r with
  | cmd => exact performCommand_lutValid h
  | root | tmData => cases h
  | _ => exact h

/-- Only an illegal command sets DONE. -/
theorem writeReg_done {r : Reg} {v : Word} {s : State} (h : (writeReg r v s).done = true) :
    s.done = true ∨ writeReg r v s = illegalCommand s := by
  cases r with
  | cmd => exact performCommand_done h
  | _ => exact .inl h

theorem writeReg_phase {r : Reg} (hr : r ≠ .cmd) (v : Word) (s : State) : (writeReg r v s).phase = s.phase := by
  cases r with
  | cmd => exact absurd rfl hr
  | _ => rfl

section
variable {r : Reg} {v : Word} {s t : State}

theorem exec_regwr_tm (h : exec (.regwr r v) s = .next t) (hr : r ≠ .tmData) : t.tm = s.tm := by
  rcases exec_regwr_cases h with rfl | ⟨-, rfl⟩ | ⟨-, -, rfl⟩
  · rfl
  · exact writeReg_tm hr v s
  · rfl

theorem exec_regwr_lut (h : exec (.regwr r v) s = .next t) : t.lut = s.lut := by
  rcases exec_regwr_cases h with rfl | ⟨-, rfl⟩ | ⟨-, -, rfl⟩
  · rfl
  · exact writeReg_lut r v s
  · rfl

theorem exec_regwr_lutValid (h : exec (.regwr r v) s = .next t) (ht : t.lutValid = true) : s.lutValid = true := by
  rcases exec_regwr_cases h with rfl | ⟨-, rfl⟩ | ⟨-, -, rfl⟩
  · exact ht
  · exact writeReg_lutValid ht
  · cases ht

theorem exec_regwr_done (h : exec (.regwr r v) s = .next t) (hs : s.done = false) (ht : t.done = true) :
    s.phase = .idle ∧ t.phase = .idle ∧ t.err = .illegalCmd := by
  rcases exec_regwr_cases h with rfl | ⟨hp, rfl⟩ | ⟨-, -, rfl⟩
  · simp [hs] at ht
  · rcases writeReg_done ht with hd | e
    · simp [hs] at hd
    · rw [e]; exact ⟨hp, hp, rfl⟩
  · cases ht

end

/-- A read of a register changes no state of the block (40_host_access.md rule R132). -/
theorem exec_regrd_eq {r : Reg} {s t : State} (h : exec (.regrd r) s = .next t) :
    ∃ n e, t = { s with freeReads := n, env := e } := by
  cases h
  obtain ⟨n, e⟩ := afterRead_eq r s
  rw [e]; exact ⟨n, _, rfl⟩

/-- A transfer to the sink changes OQ and the world only. -/
theorem sinkTransfer_eq (s : State) : ∃ q e, sinkTransfer s = { s with oq := q, env := e } := by
  rcases sinkTransfer_cases s with ⟨-, e⟩ | ⟨b, rest, -, e⟩
  · exact ⟨s.oq, s.env, e⟩
  · exact ⟨_, _, e⟩

/-! ## The flags, TM and the table, over every step -/

/-- Settles O35: the one change that can set the flag is the completion step of a GEN without error. -/
theorem onlyGenCompletionSetsLutValid : Obligations.OnlyGenCompletionSetsLutValid := by
  intro s t hstep hs ht
  have clash (h : s.lutValid = true) {P : Prop} : P := by simp [hs] at h
  cases step_made hstep with
  | command es w _ h => exact clash (exec_regwr_lutValid h ht :)
  | write es tuple r v _ _ _ h => exact clash (exec_regwr_lutValid h ht :)
  | read es r h => obtain ⟨n, e, rfl⟩ := exec_regrd_eq h; exact clash ht
  | reset es _ h => subst h; cases ht
  | engine es h =>
    rcases (engineDid_of_engineStep h).flags with ⟨-, -, e⟩ | ⟨op, hp, ho, rfl⟩
    · exact clash (e.symm.trans ht)
    · rcases lutValidAfter_true ht with ⟨rfl, he⟩ | hv
      · exact ⟨hp, he, ho, rfl, rfl, he⟩
      · exact clash hv
  | sink es h => obtain ⟨q, e, hq⟩ := sinkTransfer_eq (setEvents es s); rw [h, hq] at ht; exact clash ht
  | world e h => subst h; exact clash ht

/-- Settles O39: besides the completion step only an illegal command sets DONE. -/
theorem doneRisesOnlyAtCompletionOrIllegalCommand : Obligations.DoneRisesOnlyAtCompletionOrIllegalCommand := by
  intro s t hstep hs ht
  have clash (h : s.done = true) {P : Prop} : P := by simp [hs] at h
  cases step_made hstep with
  | command es w _ h => have ⟨hp, hp', he⟩ := exec_regwr_done h hs ht; exact ⟨hp', .inr ⟨hp, he⟩⟩
  | write es tuple r v _ _ _ h => have ⟨hp, hp', he⟩ := exec_regwr_done h hs ht; exact ⟨hp', .inr ⟨hp, he⟩⟩
  | read es r h => obtain ⟨n, e, rfl⟩ := exec_regrd_eq h; exact clash ht
  | reset es _ h => subst h; cases ht
  | engine es h =>
    rcases (engineDid_of_engineStep h).flags with ⟨e, -⟩ | ⟨op, hp, ho, rfl⟩
    · exact clash (e.symm.trans ht)
    · exact ⟨rfl, .inl ⟨op, hp, ho, rfl⟩⟩
  | sink es h => obtain ⟨q, e, hq⟩ := sinkTransfer_eq (setEvents es s); rw [h, hq] at ht; exact clash ht
  | world e h => subst h; exact clash ht

/-- Settles O37: of all moves only the engine's in GEN write the table (`EngineDid.lut`). -/
theorem onlyGenChangesTheTable : Obligations.OnlyGenChangesTheTable := by
  intro s t hstep hne
  by_contra hp
  refine hne ?_
  cases step_made hstep with
  | command es w _ h => exact (exec_regwr_lut h :)
  | write es tuple r v _ _ _ h => exact (exec_regwr_lut h :)
  | read es r h => obtain ⟨n, e, rfl⟩ := exec_regrd_eq h; rfl
  | reset es _ h => subst h; rfl
  | engine es h => exact (engineDid_of_engineStep h).lut hp
  | sink es h => obtain ⟨q, e, hq⟩ := sinkTransfer_eq (setEvents es s); rw [h, hq]; rfl
  | world e h => subst h; rfl

/-- A step that changes TM is the host's write to TM_DATA, while idle. -/
theorem step_tm {s t : State} (hstep : step s = .next t) (hne : t.tm ≠ s.tm) :
    s.phase = .idle ∧ ∃ v rest, s.env.events = .access 0b100111#6 v :: rest ∧
      t = writeReg .tmData v (setEvents rest s) := by
  cases step_made hstep with
  | command es w _ h => exact absurd (exec_regwr_tm h (by simp)) hne
  | write es tuple r v hn hd _ h =>
    by_cases hr : r = .tmData
    · subst hr
      obtain rfl := decodePort_regwr_tmData hd
      rcases exec_regwr_cases h with rfl | ⟨hp, rfl⟩ | ⟨hr, -⟩
      · exact absurd rfl hne
      · exact ⟨hp, v, es, hn, rfl⟩
      · cases hr
    · exact absurd (exec_regwr_tm h hr) hne
  | read es r h => obtain ⟨n, e, rfl⟩ := exec_regrd_eq h; exact absurd rfl hne
  | reset es _ h => subst h; exact absurd rfl hne
  | engine es h => exact absurd (engineDid_of_engineStep h).operands.1 hne
  | sink es h => obtain ⟨q, e, hq⟩ := sinkTransfer_eq (setEvents es s); exact absurd (by rw [h, hq]; rfl) hne
  | world e h => subst h; exact absurd rfl hne

/-- Settles O36: the step is the write found by `step_tm`, which touches one entry and clears LUT_VALID. -/
theorem onlyAHostWriteChangesTm : Obligations.OnlyAHostWriteChangesTm := by
  rintro s t hstep ⟨a, ha⟩
  obtain ⟨hp, v, rest, hn, rfl⟩ := step_tm hstep fun e => ha (by rw [memRead_congr e])
  refine ⟨hp, rfl, fun b hb => ?_, v, rest, hn⟩
  exact (memRead_memWrite (setEvents rest s) s.tmAddr b (v.extractLsb' 0 19)).trans (if_neg hb)

/-! ## PHASE -/

theorem resetEvent_values (s : State) : ResetValues (resetEvent s) := by constructor <;> rfl

/-- Settles O38: the engine's moves by `EngineDid.phase`, the host's by the command word. -/
theorem phaseMovesOnlyAsStated : Obligations.PhaseMovesOnlyAsStated := by
  intro s t hstep
  cases step_made hstep with
  | command es w hn h =>
    rcases exec_regwr_cases h with rfl | ⟨hp, rfl⟩ | ⟨-, rfl, rfl⟩
    · exact .inl rfl
    · rw [writeReg_cmd]
      cases hc : decodeCommand w with
      | none => exact .inl rfl
      | some c =>
        have hw := encode_of_decodeCommand hc
        cases c with
        | nop | clr => exact .inl rfl
        | gen => cases hw; exact .inr (.inl ⟨hp, .inl ⟨hn, rfl⟩⟩)
        | pack => cases hw; exact .inr (.inl ⟨hp, .inr (.inl ⟨hn, rfl⟩)⟩)
        | unpack => cases hw; exact .inr (.inl ⟨hp, .inr (.inr ⟨hn, rfl⟩)⟩)
        | srst =>
          cases hw
          exact .inr (.inr (.inr (.inr (.inr (.inr ⟨.inr hn, resetEvent_values _⟩)))))
    · exact .inr (.inr (.inr (.inr (.inr (.inr ⟨.inr hn, resetEvent_values _⟩)))))
  | write es tuple r v _ _ hr h =>
    rcases exec_regwr_cases h with rfl | ⟨-, rfl⟩ | ⟨e, -⟩
    · exact .inl rfl
    · exact .inl (writeReg_phase hr v _)
    · exact absurd e hr
  | read es r h => obtain ⟨n, e, rfl⟩ := exec_regrd_eq h; exact .inl rfl
  | reset es hn h => subst h; exact .inr (.inr (.inr (.inr (.inr (.inr ⟨hn, resetEvent_values _⟩)))))
  | engine es h =>
    rcases (engineDid_of_engineStep h).phase with e | ⟨op, hp, e⟩ | ⟨op, hp, ho, rfl⟩
    · exact .inl e
    · cases op with
      | gen => exact .inr (.inr (.inl ⟨hp, e⟩))
      | pack => exact .inr (.inr (.inr (.inl ⟨hp, e⟩)))
      | unpack => exact .inr (.inr (.inr (.inr (.inl ⟨hp, e⟩))))
    · exact .inr (.inr (.inr (.inr (.inr (.inl ⟨op, hp, ho, rfl, rfl, rfl⟩)))))
  | sink es h => obtain ⟨q, e, hq⟩ := sinkTransfer_eq (setEvents es s); exact .inl (by rw [h, hq]; rfl)
  | world e h => subst h; exact .inl rfl

/-! ## The streams -/

/-- The source takes back what it is bound to show (70_reset_and_hazards.md rule R297): the mark, shown to an operation
that uses the stream, or the byte, offered to a running one. -/
def SourceBreach (bytes : List Byte) (eos : Bool) (s : State) : Prop :=
  (s.env.source = [] ∧ s.env.eos = true ∧ ¬ (bytes = [] ∧ eos = true) ∧
    (runningOp s.phase = some .pack ∨ runningOp s.phase = some .unpack)) ∨
  (s.env.source ≠ [] ∧ bytes.head? ≠ s.env.source.head? ∧ (s.phase = .pack ∨ s.phase = .unpack))

theorem runningOp_eq_some {p : Phase} {op : Op} : runningOp p = some op ↔ p = op.phase ∨ p = .drain op := by
  cases p <;> cases op <;> simp [runningOp, Op.phase]

/-- The world with another source. -/
def withSource (bytes : List Byte) (eos : Bool) (s : State) : State :=
  { s with env := { s.env with source := bytes, eos := eos } }

/-- A source at its mark goes on showing it, or does not. -/
theorem inNext_withSource_of_mark {bytes : List Byte} {eos : Bool} {s : State} (hs : s.env.source = [])
    (he : s.env.eos = true) : inNext (withSource bytes eos s) = inNext s ↔ bytes = [] ∧ eos = true := by
  rw [inNext_eos.mpr ⟨hs, he⟩, inNext_eos]; rfl

/-- A source that offers a byte goes on offering it, or does not. -/
theorem inNext_withSource_of_byte {bytes : List Byte} {eos : Bool} {s : State} (hs : s.env.source ≠ []) :
    inNext (withSource bytes eos s) = inNext s ↔ bytes.head? = s.env.source.head? := by
  obtain ⟨b, rest, hs⟩ := List.exists_cons_of_ne_nil hs
  rw [inNext_byte.mpr ⟨rest, hs⟩, inNext_byte, hs]
  cases bytes <;> simp [withSource]

/-- A breach is a change of what is shown while the source is bound to it. -/
theorem sourceBreach_iff {bytes : List Byte} {eos : Bool} {s : State} : SourceBreach bytes eos s ↔
    sourceBound s = true ∧ inNext (withSource bytes eos s) ≠ inNext s := by
  rw [sourceBound_iff]
  unfold SourceBreach
  simp only [runningOp_eq_some, Op.phase, ne_eq]
  by_cases hs : s.env.source = []
  · by_cases he : s.env.eos = true
    · rw [inNext_withSource_of_mark hs he]; tauto
    · tauto
  · rw [inNext_withSource_of_byte hs]; tauto

/-- A move of the source is refused exactly when it is a breach. -/
theorem moveSource_of_breach {bytes : List Byte} {eos : Bool} {s : State} (h : SourceBreach bytes eos s) :
    moveSource bytes eos s = .refused .sourceProtocol := by
  obtain ⟨hb, hi⟩ := sourceBreach_iff.mp h
  exact if_pos (Bool.and_eq_true_iff.mpr ⟨hb, decide_eq_true hi⟩)

theorem moveSource_of_not_breach {bytes : List Byte} {eos : Bool} {s : State} (h : ¬ SourceBreach bytes eos s) :
    moveSource bytes eos s = .next (withSource bytes eos s) := by
  refine moveSource_next ?_
  rw [sourceBreach_iff] at h
  by_cases hb : sourceBound s = true
  · exact .inr (Classical.not_not.mp fun hi => h ⟨hb, hi⟩)
  · exact .inl (Bool.eq_false_iff.mpr hb)

/-- One more byte behind those offered withdraws nothing but a mark already shown. -/
theorem sourceBreach_offer_iff {b : Byte} {s : State} : SourceBreach (s.env.source ++ [b]) false s ↔
    s.env.source = [] ∧ s.env.eos = true ∧
      (runningOp s.phase = some .pack ∨ runningOp s.phase = some .unpack) := by
  unfold SourceBreach
  cases s.env.source <;> simp

/-! ## No step is refused but for the source -/

/-- No instruction stops the machine. -/
theorem exec_answers (i : Instr) (s : State) : ∃ t, exec i s = .next t := by
  cases i with
  | nodeLeaf x sym =>
    simp only [exec, execNodeLeaf]
    repeat' split
    all_goals exact ⟨_, rfl⟩
  | nodeInternal low high =>
    simp only [exec, execNodeInternal]
    repeat' split
    all_goals exact ⟨_, rfl⟩
  | _ => exact ⟨_, rfl⟩

theorem freeRun_answers (s : State) : ∃ t, freeRun s = .next t := by
  unfold freeRun
  split
  · obtain ⟨t, ht, -⟩ := engineStep_answers s; exact ⟨t, ht⟩
  · split <;> exact ⟨_, rfl⟩

theorem hostCommand_answers (w : Word) (s : State) : ∃ t, hostCommand w s = .next t :=
  hostCommand_eq w s ▸ exec_answers _ s

/-- A refused step is a move of the source. -/
theorem step_refused {s : State} {r : Refusal} (h : step s = .refused r) :
    r = .sourceProtocol ∧ ∃ rest,
      (∃ b, s.env.events = .offer b :: rest) ∨ ∃ bytes eos, s.env.events = .reposition bytes eos :: rest := by
  have answered {o : Host.Outcome State Fault Refusal} (ho : ∃ t, o = .next t) (h : o = .refused r)
      {P : Prop} : P := by
    obtain ⟨t, rfl⟩ := ho; cases h
  have moved {bytes eos u} (h : moveSource bytes eos u = .refused r) : r = .sourceProtocol := by
    rcases moveSource_cases bytes eos u with ⟨-, e⟩ | e <;> cases e.symm.trans h
    rfl
  unfold step nextEvent at h
  split at h
  · exact answered (freeRun_answers s) h
  · exact answered (hostCommand_answers _ _) h
  · exact answered (exec_answers _ _) h
  · split at h
    · exact answered (freeRun_answers s) h
    · exact answered (exec_answers _ _) h
  · obtain ⟨t, ht, -⟩ := engineStep_answers (setEvents _ s); exact answered ⟨t, ht⟩ h
  · cases h
  · cases h
  · exact ⟨moved h, _, .inl ⟨_, by assumption⟩⟩
  · cases h
  · exact ⟨moved h, _, .inr ⟨_, _, by assumption⟩⟩
  · cases h

/-- Settles O41: the engine by `EngineDid.source`, the source by what is a breach. -/
theorem engineTakesOnlyTheByteItAskedFor : Obligations.EngineTakesOnlyTheByteItAskedFor := by
  refine ⟨fun s t h => (engineDid_of_engineStep h).source, fun s b rest hn => ?_, fun s rest hn => ?_,
    fun s bytes eos rest hn => ?_, fun s r h => step_refused h⟩
  · have hstep : step s = moveSource (s.env.source ++ [b]) false (setEvents rest s) := by
      simp [step, nextEvent, hn, offerByte]
    have hbreach := sourceBreach_offer_iff (b := b) (s := setEvents rest s)
    rw [hstep]
    exact ⟨fun h => moveSource_of_breach (hbreach.mpr h),
      fun h => moveSource_of_not_breach fun hb => h (hbreach.mp hb)⟩
  · simp [step, nextEvent, hn, showEndMark]
  · have hstep : step s = moveSource bytes eos (setEvents rest s) := by
      simp [step, nextEvent, hn, repositionSource]
    rw [hstep]
    exact ⟨fun h => moveSource_of_breach h, fun h => moveSource_of_not_breach h⟩

/-- Settles O44: the step is `sinkTransfer`, with OQ empty or not. -/
theorem sinkTakesTheHeadOfTheQueue : Obligations.SinkTakesTheHeadOfTheQueue := by
  intro s rest hn
  have hstep : step s = .next (sinkTransfer (setEvents rest s)) := by simp [step, nextEvent, hn]
  exact ⟨fun b q ho => by simp [hstep, sinkTransfer, ho], fun ho => by simp [hstep, sinkTransfer, ho, setEvents]⟩

/-! ## Reset -/

theorem resetValues_reset : ResetValues State.reset := by constructor <;> rfl

/-- Settles O1: each value is computed; the entry 0 of TM is read as it stands. -/
theorem resetStateHoldsTheStatedValues : Obligations.ResetStateHoldsTheStatedValues :=
  ⟨resetValues_reset, rfl, rfl, rfl, rfl, rfl, rfl, by decide, rfl⟩

/-- Settles O4: the state after reset is what the reset event makes of it. -/
theorem resetHasBothInvariants : Obligations.ResetHasBothInvariants :=
  ⟨stateInv_resetEvent (s := State.reset) reset_memory_wf reset_table_wf, .of_idle_invalid rfl rfl⟩

end Sys2Proof.Machine

/-!
# The operands and the node words (20_memory.md)

What the host's accesses and the engine's turn run, and what leaves the operands of an operation as they were.
-/

namespace Sys2Proof.Machine

/-! ## The step, by its next event -/

section
variable {s : State} {rest : List Event}

theorem step_of_command {w : Word} (hn : s.env.events = .command w :: rest) :
    step s = hostCommand w (setEvents rest s) := by simp only [step, nextEvent, hn]

theorem step_of_access {tuple : BitVec 6} {v : Word} (hn : s.env.events = .access tuple v :: rest) :
    step s = hostAccess tuple v (setEvents rest s) := by simp only [step, nextEvent, hn]

theorem step_of_engine (hn : s.env.events = .engine :: rest) : step s = engineStep (setEvents rest s) := by
  simp only [step, nextEvent, hn]

end

/-! ## Decoding on the way to `exec` -/

section
variable {s : State} {i : Instr}

theorem hostCommand_of_decode {w : Word} (hd : decode (.cmd w) = .ok i) : hostCommand w s = exec i s := by
  simp only [hostCommand, hd]

theorem hostAccess_of_decode {tuple : BitVec 6} {v : Word} (hd : decode (.port tuple v) = .ok i) :
    hostAccess tuple v s = exec i s := by
  cases hd; rfl

/-- In UNPACK, with a symbol still to emit, the engine runs the word at CUR (44_unpack.md rule R221). -/
theorem engineStep_unpack_of_decode (hp : s.phase = .unpack) (hc : s.cnt ≠ s.nsym)
    (hd : decode (.node (memRead s s.cur)) = .ok i) : engineStep s = exec i s := by
  cases hd
  simp only [engineStep, hp, if_neg hc]

/-- In GEN the engine runs the word of the node on top of the stack (42_code_lut.md rule R181). -/
theorem engineStep_gen_of_decode {it : GenItem} {st : List GenItem} (hp : s.phase = .gen)
    (hg : s.gen = .visiting (it :: st)) (hd : decode (.node (memRead s it.node)) = .ok i) :
    engineStep s = exec i s := by
  cases hd
  simp only [engineStep, hp, hg]

end

/-- Settles O15: the next event fixes who moves, and each of them runs what it decodes. -/
theorem stepRunsTheDecodedInstruction : Obligations.StepRunsTheDecodedInstruction := by
  refine ⟨fun s w rest i hn hd => ?_, fun s tuple v rest i hn hd => ?_, fun s rest i hn hp hc hd => ?_,
    fun s rest it st i hn hp hg hd => ?_⟩
  · exact (step_of_command hn).trans (hostCommand_of_decode hd)
  · exact (step_of_access hn).trans (hostAccess_of_decode hd)
  · exact (step_of_engine hn).trans (engineStep_unpack_of_decode (s := setEvents rest s) hp hc hd)
  · exact (step_of_engine hn).trans (engineStep_gen_of_decode (s := setEvents rest s) hp hg hd)

/-- Settles O56: each of the two meanings looks at PHASE first. -/
theorem nodeWordsDoNothingOutsideAWalk : Obligations.NodeWordsDoNothingOutsideAWalk := by
  rintro s x sym low high (hp | hp | ⟨op, hp⟩) <;> simp only [exec, execNodeLeaf, execNodeInternal, hp, and_self]

/-! ## What changes the operands -/

/-- TM, ROOT, NSYM, IRQEN, TM_ADDR and LUT_SYM, which an operation reads or the host alone owns (rule R86), are in `t`
what they were in `s`. -/
def OperandsKept (s t : State) : Prop :=
  t.tm = s.tm ∧ t.root = s.root ∧ t.nsym = s.nsym ∧ t.ie = s.ie ∧ t.tmAddr = s.tmAddr ∧ t.lutSym = s.lutSym

/-- The output queue, the world and the counter of free values are no operands. -/
theorem operandsKept_outside (s : State) (q : List Byte) (n : Nat) (e : Env) :
    OperandsKept s { s with oq := q, freeReads := n, env := e } := ⟨rfl, rfl, rfl, rfl, rfl, rfl⟩

theorem accessesNext_of_writesCmd {s : State} {w : Word} (h : writesCmd s w) : accessesNext s := by
  obtain ⟨rest, h | h⟩ := h
  · exact ⟨rest, .inl ⟨_, h⟩⟩
  · exact ⟨rest, .inr ⟨_, _, h⟩⟩

theorem engineStep_idle {s : State} (hp : s.phase = .idle) : engineStep s = .next s := by
  simp only [engineStep, hp]

/-- SAID ONCE: the operands change by a reset event or by a host access that finds the block idle, and by nothing else. -/
theorem step_operands {s t : State} (hstep : step s = .next t) :
    (resetsNext s ∧ ResetValues t) ∨ OperandsKept s t ∨ (s.phase = .idle ∧ accessesNext s) := by
  cases step_made hstep with
  | command es w hn h =>
    rcases exec_regwr_cases h with rfl | ⟨hp, -⟩ | ⟨-, rfl, rfl⟩
    · exact .inr (.inl (operandsKept_outside s _ _ _))
    · exact .inr (.inr ⟨hp, accessesNext_of_writesCmd hn⟩)
    · exact .inl ⟨.inr hn, resetEvent_values _⟩
  | write es tuple r v hn _ hr h =>
    rcases exec_regwr_cases h with rfl | ⟨hp, -⟩ | ⟨hr', -⟩
    · exact .inr (.inl (operandsKept_outside s _ _ _))
    · exact .inr (.inr ⟨hp, es, .inr ⟨tuple, v, hn⟩⟩)
    · exact absurd hr' hr
  | read es r h => obtain ⟨n, e, rfl⟩ := exec_regrd_eq h; exact .inr (.inl (operandsKept_outside s _ _ _))
  | reset es hn h => exact .inl ⟨hn, h ▸ resetEvent_values _⟩
  | engine es h => exact .inr (.inl (engineDid_of_engineStep h).operands)
  | sink es h =>
    obtain ⟨q, e, hq⟩ := sinkTransfer_eq (setEvents es s)
    exact .inr (.inl (h.trans hq ▸ operandsKept_outside s _ _ _))
  | world e h => exact .inr (.inl (h ▸ operandsKept_outside s _ _ _))

/-- A step that finds the block idle leaves it so, unless the host accesses it or a reset event comes (rules R167, R283). -/
theorem step_stays_idle {s t : State} (hstep : step s = .next t) (hp : s.phase = .idle) (ha : ¬ accessesNext s)
    (hr : ¬ resetsNext s) : t.phase = .idle := by
  have silent {w : Word} : ¬ writesCmd s w := fun h => ha (accessesNext_of_writesCmd h)
  have moves := phaseMovesOnlyAsStated s t hstep
  simpa [hp, silent, hr] using moves

/-- Settles O40: `step_operands`, read for a busy block and for an idle one. -/
theorem operandsAreConstantWhileBusy : Obligations.OperandsAreConstantWhileBusy := by
  refine ⟨fun s t hstep hb => ?_, fun s hp => engineStep_idle hp, fun s t hstep hp ha hr => ?_⟩
  · rcases step_operands hstep with h | h | ⟨hp, -⟩
    · exact .inl h
    · exact .inr h
    · exact absurd hp hb
  · refine ⟨step_stays_idle hstep hp ha hr, ?_⟩
    rcases step_operands hstep with ⟨h, -⟩ | h | ⟨-, h⟩
    · exact absurd h hr
    · exact h
    · exact absurd h ha

end Sys2Proof.Machine

/-!
# The encodings (30_encoding.md)

The decoder and the encoder undo each other format by format, and a table's code gives its path back.
-/

namespace Sys2Proof.Machine

/-! ## A word and its fields: a tag bit above one or two fields -/

section
variable {m n : Nat}

theorem getLsbD_ofBool_append (b : Bool) (x : BitVec m) : (BitVec.ofBool b ++ x).getLsbD m = b := by
  rw [BitVec.getLsbD_append]
  simp

theorem getLsbD_ofBool_append_append (b : Bool) (x : BitVec m) (y : BitVec n) :
    (BitVec.ofBool b ++ x ++ y).getLsbD (n + m) = b := by
  have hn : ¬ n + m < n := by omega
  rw [BitVec.getLsbD_append, if_neg hn, Nat.add_sub_cancel_left, getLsbD_ofBool_append]

theorem extractLsb'_append_append (t : BitVec 1) (x : BitVec m) (y : BitVec n) :
    (t ++ x ++ y).extractLsb' n m = x := by
  rw [BitVec.extractLsb'_append_eq_of_le le_rfl, Nat.sub_self, BitVec.extractLsb'_append_eq_right]

theorem extractLsb'_one (w : BitVec m) (k : Nat) : w.extractLsb' k 1 = BitVec.ofBool (w.getLsbD k) := by
  ext j hj
  obtain rfl : j = 0 := by omega
  simp

theorem ofBool_append_extractLsb' (w : BitVec (1 + m)) :
    BitVec.ofBool (w.getLsbD m) ++ w.extractLsb' 0 m = w := by
  rw [← extractLsb'_one, BitVec.extractLsb'_append_extractLsb']

theorem ofBool_append_extractLsb'_append (w : BitVec (1 + m + n)) :
    BitVec.ofBool (w.getLsbD (n + m)) ++ w.extractLsb' n m ++ w.extractLsb' 0 n = w := by
  rw [← extractLsb'_one, BitVec.extractLsb'_append_extractLsb'_eq_extractLsb' rfl,
    BitVec.extractLsb'_append_extractLsb']

end

/-! ## Register numbers (10_state.md rule R30) -/

theorem ofNumber_number {r : Reg} (h : r.wf = true) : Reg.ofNumber r.number = r := by
  cases r with
  | lutBits k => revert k; decide
  | reserved n => revert n; decide
  | _ => rfl

theorem number_ofNumber (n : BitVec 5) : (Reg.ofNumber n).number = n := by
  revert n; decide

theorem wf_ofNumber (n : BitVec 5) : (Reg.ofNumber n).wf = true := by
  revert n; decide

/-! ## Command words (rules R101 and R103) -/

theorem decodeCommand_eq_some_iff {w : Word} {c : Command} :
    decodeCommand w = some c ↔ encode (.ofCommand c) = .cmd w := by
  refine ⟨encode_of_decodeCommand, fun h => ?_⟩
  cases c <;> cases h <;> rfl

theorem decodeCommand_eq_none_iff {w : Word} : decodeCommand w = none ↔ 6 ≤ w.toNat := by
  unfold decodeCommand
  split_ifs with h0 h1 h2 h3 h4 h5
  case neg => simp only [true_iff]; bv_omega
  all_goals subst w; decide

theorem decode_cmd_eq_ok_iff {w : Word} {i : Instr} :
    decode (.cmd w) = .ok i ↔ ∃ c, decodeCommand w = some c ∧ .ofCommand c = i := by
  cases h : decodeCommand w <;> simp [decode, h]

theorem decode_cmd_eq_error_iff {w : Word} :
    decode (.cmd w) = .error (.illegalCommand w) ↔ decodeCommand w = none := by
  cases h : decodeCommand w <;> simp [decode, h]

theorem wf_ofCommand (c : Command) : (Instr.ofCommand c).wf = true := by
  cases c <;> rfl

/-! ## Register port tuples (40_host_access.md rule R130) -/

theorem decodePort_read (n : BitVec 5) (v : Word) : decodePort (0#1 ++ n) v = .regrd (Reg.ofNumber n) := by
  have hwe : (0#1 ++ n).getLsbD 5 = false := getLsbD_ofBool_append false n
  rw [decodePort, hwe, BitVec.extractLsb'_append_eq_right]
  rfl

theorem decodePort_write (n : BitVec 5) (v : Word) : decodePort (1#1 ++ n) v = .regwr (Reg.ofNumber n) v := by
  have hwe : (1#1 ++ n).getLsbD 5 = true := getLsbD_ofBool_append true n
  rw [decodePort, hwe, BitVec.extractLsb'_append_eq_right]
  rfl

/-- A read does not look at its data word, so the encoder gives it 0. -/
theorem encode_decodePort (tuple : BitVec 6) (v : Word) :
    encode (decodePort tuple v) = .port tuple (if tuple.getLsbD 5 then v else 0#32) := by
  have hjoin := ofBool_append_extractLsb' (m := 5) tuple
  unfold decodePort
  split_ifs with hwe
  · rw [hwe] at hjoin
    rw [encode, number_ofNumber]
    exact congrArg (InstrWord.port · v) hjoin
  · rw [Bool.eq_false_of_not_eq_true hwe] at hjoin
    rw [encode, number_ofNumber]
    exact congrArg (InstrWord.port · 0#32) hjoin

theorem wf_decodePort (tuple : BitVec 6) (v : Word) : (decodePort tuple v).wf = true := by
  unfold decodePort
  split_ifs
  · exact wf_ofNumber _
  · exact wf_ofNumber _

/-! ## Node words (rules R104 to R107) -/

section
variable (x : BitVec 10) (sym : Sym) (low high : NodeIdx)

theorem isInternal_leafWord : isInternal (0#1 ++ x ++ sym) = false := getLsbD_ofBool_append_append false x sym

theorem symOf_leafWord : symOf (0#1 ++ x ++ sym) = sym := BitVec.extractLsb'_append_eq_right

theorem isInternal_internalWord : isInternal (1#1 ++ low ++ high) = true :=
  getLsbD_ofBool_append_append true low high

theorem lowOf_internalWord : lowOf (1#1 ++ low ++ high) = low := extractLsb'_append_append 1#1 low high

theorem highOf_internalWord : highOf (1#1 ++ low ++ high) = high := BitVec.extractLsb'_append_eq_right

theorem decodeNode_leafWord : decodeNode (0#1 ++ x ++ sym) = .nodeLeaf x sym := by
  rw [decodeNode_leaf (isInternal_leafWord x sym), symOf_leafWord, extractLsb'_append_append]

theorem decodeNode_internalWord : decodeNode (1#1 ++ low ++ high) = .nodeInternal low high := by
  rw [decodeNode_internal (isInternal_internalWord low high), lowOf_internalWord, highOf_internalWord]

/-- The number `s` is the Leaf word of symbol `s` (rule R104). -/
theorem setWidth_eq_leafWord : sym.setWidth 19 = 0#1 ++ 0#10 ++ sym := by
  apply BitVec.eq_of_toNat_eq
  have hs := sym.isLt
  rw [BitVec.toNat_append, BitVec.toNat_append, ← Nat.shiftLeft_add_eq_or_of_lt hs]
  simp
  omega

/-- The number `0x40000 + 512 l + h` is the Internal word of `l` and `h` (rule R104). -/
theorem ofNat_eq_internalWord :
    BitVec.ofNat 19 (0x40000 + 512 * low.toNat + high.toNat) = 1#1 ++ low ++ high := by
  apply BitVec.eq_of_toNat_eq
  have hl := low.isLt
  have hh := high.isLt
  rw [BitVec.toNat_append, BitVec.toNat_append, ← Nat.shiftLeft_add_eq_or_of_lt hh,
    ← Nat.shiftLeft_add_eq_or_of_lt hl]
  simp [Nat.shiftLeft_eq]
  omega

end

theorem encode_decodeNode (w : NodeWord) : encode (decodeNode w) = .node w := by
  cases hk : isInternal w with
  | false =>
    have hjoin : BitVec.ofBool (isInternal w) ++ w.extractLsb' 8 10 ++ symOf w = w :=
      ofBool_append_extractLsb'_append (m := 10) (n := 8) w
    rw [hk] at hjoin
    rw [decodeNode_leaf hk]
    exact congrArg InstrWord.node hjoin
  | true =>
    have hjoin : BitVec.ofBool (isInternal w) ++ lowOf w ++ highOf w = w :=
      ofBool_append_extractLsb'_append (m := 9) (n := 9) w
    rw [hk] at hjoin
    rw [decodeNode_internal hk]
    exact congrArg InstrWord.node hjoin

theorem wf_decodeNode (w : NodeWord) : (decodeNode w).wf = true := by
  cases hk : isInternal w with
  | false => rw [decodeNode_leaf hk]; rfl
  | true => rw [decodeNode_internal hk]; rfl

/-! ## The obligations on the three formats -/

/-- Settles O10: format by format, each field is read back from where the encoder put it. -/
theorem decodeOfEncodeIsTheInstruction : Obligations.DecodeOfEncodeIsTheInstruction := by
  intro i hi
  cases i with
  | nop | gen | pack | unpack | clr | srst => rfl
  | regrd r => rw [encode, decode, decodePort_read, ofNumber_number hi]
  | regwr r v => rw [encode, decode, decodePort_write, ofNumber_number hi]
  | nodeLeaf x sym => rw [encode, decode, decodeNode_leafWord]
  | nodeInternal low high => rw [encode, decode, decodeNode_internalWord]

/-- Settles O11: a word is its fields joined again, and every register number names a register. -/
theorem encodeOfDecodeIsTheWord : Obligations.EncodeOfDecodeIsTheWord := by
  refine ⟨fun w i h => ?_, fun w i h => ?_, fun w i h => ?_, fun tuple v i h => ?_⟩
  · cases w with
    | cmd w => obtain ⟨c, -, rfl⟩ := decode_cmd_eq_ok_iff.mp h; exact wf_ofCommand c
    | port tuple v => cases h; exact wf_decodePort tuple v
    | node w => cases h; exact wf_decodeNode w
  · obtain ⟨c, hc, rfl⟩ := decode_cmd_eq_ok_iff.mp h
    exact encode_of_decodeCommand hc
  · cases h; exact encode_decodeNode w
  · cases h; exact encode_decodePort tuple v

/-- Settles O12: the words of the six commands are their encodings, and the decoder compares all 32 bits. -/
theorem exactlySixCommandWords : Obligations.ExactlySixCommandWords := by
  refine ⟨fun w c => ?_, fun w => decode_cmd_eq_error_iff.trans decodeCommand_eq_none_iff⟩
  have heq (a : Word) : InstrWord.cmd a = .cmd w ↔ w = a := by rw [InstrWord.cmd.injEq, eq_comm]
  rw [decodeCommand_eq_some_iff]
  cases c <;> exact heq _

/-- Settles O13: the two number forms are the Leaf word with bits 17:8 clear and the Internal word. -/
theorem everyNodeWordDecodes : Obligations.EveryNodeWordDecodes := by
  refine ⟨fun w => ?_, fun sym => ?_, fun l h => ?_, fun _ _ _ _ => rfl⟩
  · cases hk : isInternal w with
    | false => exact congrArg Except.ok (decodeNode_leaf hk)
    | true => exact congrArg Except.ok (decodeNode_internal hk)
  · rw [setWidth_eq_leafWord]
    exact ⟨isInternal_leafWord _ sym, symOf_leafWord _ sym⟩
  · rw [ofNat_eq_internalWord]
    exact ⟨isInternal_internalWord l h, lowOf_internalWord l h, highOf_internalWord l h⟩

/-- Settles O14: each word is decoded as it stands. -/
theorem writtenOutWordsDecode : Obligations.WrittenOutWordsDecode := by
  unfold Obligations.WrittenOutWordsDecode
  decide

/-! ## The value of a path (rules R12, R109 and R110) -/

theorem appendPath_eq_shiftConcat (v : CodeVal) (b : Bool) : appendPath v b = v.shiftConcat b := by
  rw [appendPath, BitVec.shiftConcat, BitVec.truncate, ← BitVec.append_ofBool,
    BitVec.setWidth_append_eq_shiftLeft_setWidth_or, BitVec.setWidth_eq]

theorem pathNat_snoc (p : List Bool) (b : Bool) : pathNat (p ++ [b]) = 2 * pathNat p + b.toNat := by
  simp [pathNat]

theorem pathNat_lt (p : List Bool) : pathNat p < 2 ^ p.length := by
  induction p using List.reverseRecOn with
  | nil => decide
  | append_singleton p b ih =>
    have hb := b.toNat_lt
    rw [pathNat_snoc, List.length_append, List.length_singleton, Nat.pow_succ]
    omega

/-- Up to 255 edges the 255-bit field holds the path's value: no bit is shifted out. -/
theorem toNat_pathValue {p : List Bool} (hp : p.length ≤ 255) : (pathValue p).toNat = pathNat p := by
  induction p using List.reverseRecOn with
  | nil => rfl
  | append_singleton p b ih =>
    have hlen : p.length < 255 := by simpa using hp
    have hval := ih hlen.le
    have hfits : (pathValue p).toNat < 2 ^ p.length := hval ▸ pathNat_lt p
    rw [pathValue_snoc, appendPath_eq_shiftConcat, BitVec.toNat_shiftConcat_eq_of_lt hlen hfits, hval,
      pathNat_snoc, Nat.mul_comm]

/-- Settles O47: the bits by `codeBits_codeOfPath`, the value by `toNat_pathValue`. -/
theorem codeBitsAreThePath : Obligations.CodeBitsAreThePath := fun _ hp =>
  ⟨codeBits_codeOfPath hp, toNat_pathValue hp⟩

end Sys2Proof.Machine

/-!
# Host access (40_host_access.md)

First what a register access does, whichever the register; then, register by register, the value a read returns and what
an accepted write stores.
-/

namespace Sys2Proof.Machine

/-! ## Reads (rule R132) -/

/-- A read of any register but CNT changes nothing and gives the host the value of the state. -/
theorem exec_regrd (r : Reg) (hr : r ≠ .cnt) (s : State) :
    exec (.regrd r) s = .next { s with env := { s.env with rdata := readReg r s } } := by
  have hsame : afterRead r s = s := by
    unfold afterRead
    split
    · exact absurd rfl hr
    · rfl
  rw [exec, execRegrd, hsame]
  rfl

theorem exec_regrd_cnt_idle {s : State} (hp : s.phase = .idle) :
    exec (.regrd .cnt) s = .next { s with env := { s.env with rdata := s.cnt } } := by
  rw [exec, execRegrd, readReg, afterRead, busy_eq_false_iff.mpr hp]
  rfl

/-- CNT while busy: the value is free, and the model's counter of free values moves on (log 5). -/
theorem exec_regrd_cnt_busy {s : State} (hp : s.phase ≠ .idle) :
    exec (.regrd .cnt) s = .next { s with
      freeReads := s.freeReads + 1
      env := { s.env with rdata := Config.cntWhileBusy s.freeReads } } := by
  rw [exec, execRegrd, readReg, afterRead, busy_eq_true_iff.mpr hp]
  rfl

/-! ## Writes (rule R131) -/

section
variable {r : Reg} {v : Word} {s : State}

theorem exec_regwr_idle (hp : s.phase = .idle) : exec (.regwr r v) s = .next (writeReg r v s) := by
  rw [exec, execRegwr, if_pos (writeAccepted_idle hp)]

theorem exec_regwr_busy (hp : s.phase ≠ .idle) (hne : ¬ (r = .cmd ∧ v = 0x00000005#32)) :
    exec (.regwr r v) s = .next s := by
  have hdrop : ¬ writeAccepted r v s = true := fun ha => (writeAccepted_iff.mp ha).elim hp hne
  rw [exec, execRegwr, if_neg hdrop]

/-- Only CMD has a write that is acted on while busy. -/
theorem exec_regwr_busy_of_ne_cmd (hr : r ≠ .cmd) (hp : s.phase ≠ .idle) : exec (.regwr r v) s = .next s :=
  exec_regwr_busy hp fun h => hr h.1

/-- A register that an accepted write leaves alone is left alone by every write. -/
theorem exec_regwr_readOnly (h : writeReg r v s = s) : exec (.regwr r v) s = .next s := by
  rw [exec, execRegwr, h, ite_self]

end

/-- A write of a command's word to CMD is that command, idle or busy (rule R160). -/
theorem exec_regwr_cmd {w : Word} {c : Command} (hc : decodeCommand w = some c) (s : State) :
    exec (.regwr .cmd w) s = exec (.ofCommand c) s :=
  (hostCommand_eq w s).symm.trans (hostCommand_of_decode (decode_cmd_eq_ok_iff.mpr ⟨c, hc, rfl⟩))

/-! ## The values read -/

/-- Each flag stands one place above the next (rule R32). -/
theorem toNat_statusWord (s : State) :
    (statusWord s).toNat = s.err.code.toNat * 16 + s.lutValid.toNat * 4 + s.done.toNat * 2 + (busy s).toNat := by
  have hzero : 0#1 = BitVec.ofBool false := rfl
  rw [statusWord, BitVec.toNat_setWidth_of_le (by decide), hzero]
  simp only [BitVec.append_ofBool, BitVec.toNat_concat, Bool.toNat_false]
  omega

theorem toNat_zext_ofBool (b : Bool) : ((BitVec.ofBool b).setWidth 32).toNat = b.toNat := by
  rw [BitVec.toNat_setWidth_of_le (by decide), BitVec.toNat_ofBool]

theorem lookup_of_invalid {s : State} (hv : s.lutValid = false) (sym : Sym) : lookup s sym = ⟨false, 0#8, 0#255⟩ := by
  simp [lookup, hv]

/-- A symbol without a code reads as an entry of zeros. -/
theorem lookup_of_v_false {s : State} {sym : Sym} (h : (lookup s sym).v = false) :
    lookup s sym = ⟨false, 0#8, 0#255⟩ := by
  cases hv : s.lutValid with
  | false => exact lookup_of_invalid hv sym
  | true =>
    cases hc : cellGet s.lut sym.toNat with
    | none => simp [lookup, hv, hc]
    | some c => rw [lookup_of_valid hv hc] at h; cases h

theorem toNat_append_eq_add {m n : Nat} (x : BitVec m) (y : BitVec n) : (x ++ y).toNat = x.toNat * 2 ^ n + y.toNat := by
  rw [BitVec.toNat_append, ← Nat.shiftLeft_add_eq_or_of_lt y.isLt, Nat.shiftLeft_eq]

/-- V stands in bit 31, LEN in bits 7:0, zeros between (rule R40). -/
theorem toNat_lutLenWord (v : Bool) (len : CodeLen) :
    (BitVec.ofBool v ++ 0#23 ++ len).toNat = v.toNat * 2 ^ 31 + len.toNat := by
  rw [toNat_append_eq_add, toNat_append_eq_add, BitVec.toNat_ofBool, BitVec.toNat_ofNat]
  omega

/-- LUT_BITSk is the k-th 32-bit word of the code, which reaches up to bit 254 (rule R41). -/
theorem getLsbD_readReg_lutBits (k : BitVec 3) (s : State) {j : Nat} (hj : j < 32) :
    (readReg (.lutBits k) s).getLsbD j = (lookup s s.lutSym).code.getLsbD (32 * k.toNat + j) := by
  have hk := k.isLt
  have hin : 32 * k.toNat + j < 256 := by omega
  simp [readReg, hj, hin]

/-! ## The obligations on instructions and writes -/

/-- Settles O16: `exec_answers`, instruction by instruction. -/
theorem everyInstructionAnswersANextState : Obligations.EveryInstructionAnswersANextState := exec_answers

/-- Settles O21: a write is accepted while idle, or when it is SRST; the five commands look at BUSY themselves. -/
theorem writesWhileBusyAreDropped : Obligations.WritesWhileBusyAreDropped := by
  refine fun s hp => ⟨fun r v => exec_regwr_busy hp, fun i hi => ?_, exec_regwr_cmd (c := .srst) rfl s⟩
  have hdrop (f : State → State) : Host.Outcome.next (whenIdle f s) = (.next s : Host.Outcome State Fault Refusal) :=
    congrArg _ (whenIdle_busy hp)
  simp only [List.mem_cons, List.not_mem_nil, or_false] at hi
  rcases hi with rfl | rfl | rfl | rfl | rfl <;> exact hdrop _

/-! ## The obligations, register by register -/

/-- Settles O22: the write is the command its word decodes to. -/
theorem registerCmd : Obligations.RegisterCmd := by
  refine ⟨rfl, exec_regrd .cmd nofun, fun w c s hc => exec_regwr_cmd hc s, fun w s hc hp => ?_,
    fun w s hp hw => exec_regwr_busy hp fun h => hw h.2⟩
  rw [exec_regwr_idle hp, writeReg_cmd, hc]
  rfl

/-- Settles O23: the value by `toNat_statusWord`, the exclusions by R61 (b) and (c). -/
theorem registerStatus : Obligations.RegisterStatus := by
  refine ⟨rfl, fun s => ⟨_, exec_regrd .status nofun s, toNat_statusWord s⟩, fun s v => exec_regwr_readOnly rfl,
    fun s hinv => ⟨?_, hinv.errDone⟩⟩
  rintro ⟨hbusy, hdone⟩
  exact busy_eq_true_iff.mp hbusy (hinv.doneIdle hdone)

/-- Settles O24: `irq` is computed from the state after the write. -/
theorem registerIrqen : Obligations.RegisterIrqen :=
  ⟨rfl, fun s => ⟨_, exec_regrd .irqen nofun s, toNat_zext_ofBool s.ie⟩,
    fun _ _ hp => ⟨_, exec_regwr_idle hp, rfl, rfl⟩, fun _ _ => exec_regwr_busy_of_ne_cmd nofun⟩

/-- Settles O25: all 32 bits are kept, in both directions. -/
theorem registerNsym : Obligations.RegisterNsym :=
  ⟨rfl, exec_regrd .nsym nofun, fun _ _ => exec_regwr_idle, fun _ _ => exec_regwr_busy_of_ne_cmd nofun⟩

/-- Settles O26: the write clears LUT_VALID without looking at the value. -/
theorem registerRoot : Obligations.RegisterRoot :=
  ⟨rfl, fun s => ⟨_, exec_regrd .root nofun s, BitVec.toNat_setWidth_of_le (by decide)⟩,
    fun _ v hp => ⟨_, exec_regwr_idle hp, BitVec.extractLsb'_toNat 0 9 v⟩,
    fun _ _ => exec_regwr_busy_of_ne_cmd nofun⟩

/-- Settles O27: idle and busy are two equations of the read; no write reaches CNT. -/
theorem registerCnt : Obligations.RegisterCnt :=
  ⟨rfl, fun _ => exec_regrd_cnt_idle, fun _ hp => ⟨_, _, exec_regrd_cnt_busy hp⟩, fun _ _ => exec_regwr_readOnly rfl⟩

/-- Settles O28: bits 8:0 of the value are its remainder by 512. -/
theorem registerTmAddr : Obligations.RegisterTmAddr :=
  ⟨rfl, fun s => ⟨_, exec_regrd .tmAddr nofun s, BitVec.toNat_setWidth_of_le (by decide)⟩,
    fun _ v hp => ⟨_, exec_regwr_idle hp, BitVec.extractLsb'_toNat 0 9 v⟩,
    fun _ _ => exec_regwr_busy_of_ne_cmd nofun⟩

/-- Settles O29: read after write in TM, by `memRead_memWrite`. -/
theorem registerTmData : Obligations.RegisterTmData := by
  refine ⟨rfl, fun s => ⟨_, exec_regrd .tmData nofun s, BitVec.toNat_setWidth_of_le (by decide)⟩, fun s v hp => ?_,
    fun _ _ => exec_regwr_busy_of_ne_cmd nofun⟩
  have hread (a : NodeIdx) : memRead (writeReg .tmData v s) a =
      if a = s.tmAddr then v.extractLsb' 0 19 else memRead s a := memRead_memWrite s s.tmAddr a _
  refine ⟨_, exec_regwr_idle hp, ?_, fun a ha => (hread a).trans (if_neg ha)⟩
  have hsame : memRead (writeReg .tmData v s) s.tmAddr = v.extractLsb' 0 19 := (hread _).trans (if_pos rfl)
  exact (congrArg BitVec.toNat hsame).trans (BitVec.extractLsb'_toNat 0 19 v)

/-- Settles O30: bits 7:0 of the value are its remainder by 256. -/
theorem registerLutSym : Obligations.RegisterLutSym :=
  ⟨rfl, fun s => ⟨_, exec_regrd .lutSym nofun s, BitVec.toNat_setWidth_of_le (by decide)⟩,
    fun _ v hp => ⟨_, exec_regwr_idle hp, BitVec.extractLsb'_toNat 0 8 v⟩,
    fun _ _ => exec_regwr_busy_of_ne_cmd nofun⟩

/-- Settles O31: the masked entry is all zeros, so its word is 0. -/
theorem registerLutLen : Obligations.RegisterLutLen := by
  refine ⟨rfl, fun s => ⟨_, exec_regrd .lutLen nofun s, toNat_lutLenWord _ _⟩, fun s hv => ?_,
    fun s v => exec_regwr_readOnly rfl⟩
  have hzero : readReg .lutLen s = 0#32 := by rw [readReg, lookup_of_invalid hv]; rfl
  rw [exec_regrd .lutLen nofun, hzero]

/-- Settles O32: the bits by `getLsbD_readReg_lutBits`; bit 31 of LUT_BITS7 would be bit 255 of the code. -/
theorem registerLutBits : Obligations.RegisterLutBits := by
  refine ⟨by decide, fun s k => ⟨_, exec_regrd (.lutBits k) nofun s, fun j => getLsbD_readReg_lutBits k s, fun hv => ?_,
    ?_⟩, fun s k v => exec_regwr_readOnly rfl⟩
  · rw [readReg, lookup_of_v_false hv]
    simp
  · rintro rfl
    rw [getLsbD_readReg_lutBits 7#3 s (by decide)]
    exact BitVec.getLsbD_of_ge _ _ (by decide)

/-- Settles O33: the numbers without a register are looked up one by one. -/
theorem registerReserved : Obligations.RegisterReserved := by
  have hreserved : ∀ n : BitVec 5, 18 ≤ n.toNat → Reg.ofNumber n = .reserved n := by decide
  exact fun n hn => ⟨hreserved n hn, exec_regrd (.reserved n) nofun, fun s v => exec_regwr_readOnly rfl⟩

end Sys2Proof.Machine

/-!
# The control commands (41_control_commands.md)

A command finds the block idle or busy; each obligation here reads one command, or the completion step, in both.
-/

namespace Sys2Proof.Machine

/-! ## What a command and the completion step do -/

section
variable {s : State}

/-- A command other than SRST is acted on only while the block is idle (40_host_access.md rule R131). -/
theorem next_whenIdle_idle (f : State → State) (hp : s.phase = .idle) :
    Host.Outcome.next (whenIdle f s) = (.next (f s) : Host.Outcome State Fault Refusal) :=
  congrArg _ (whenIdle_idle hp)

/-- DONE = 0 holds the interrupt line low, whatever IE (10_state.md rule R26). -/
theorem irq_of_not_done (hd : s.done = false) : irq s = false := by
  rw [irq, hd, Bool.and_false]

/-- DONE = 1 leaves the interrupt line to IE. -/
theorem irq_of_done (hd : s.done = true) : irq s = s.ie := by
  rw [irq, hd, Bool.and_true]

theorem lutValidAfter_eq (op : Op) (s : State) :
    lutValidAfter op s = if op = .gen ∧ s.penderr = .none then true else s.lutValid := by
  unfold lutValidAfter
  split
  case h_1 he => rw [if_pos ⟨rfl, he⟩]
  case h_2 hne => rw [if_neg fun ⟨ho, he⟩ => hne ho he]

theorem engineStep_drain_empty {op : Op} (hp : s.phase = .drain op) (hq : s.oq = []) :
    engineStep s = .next (complete op s) := by
  simp only [engineStep, hp, hq, List.isEmpty_nil, if_true]

/-- While the sink has bytes to take, the completion step is not enabled. -/
theorem engineStep_drain_waits {op : Op} (hp : s.phase = .drain op) (hq : s.oq ≠ []) : engineStep s = .next s := by
  simp only [engineStep, hp, List.isEmpty_iff, if_neg hq]

/-- A CMD event is the write of its word to register 0 (log 15). -/
theorem step_of_command_regwr {w : Word} {rest : List Event} (hn : s.env.events = .command w :: rest) :
    step s = exec (.regwr .cmd w) (setEvents rest s) :=
  (step_of_command hn).trans (hostCommand_eq w _)

theorem statusWord_resetEvent (s : State) : statusWord (resetEvent s) = 0#32 := by
  rw [statusWord, busy_eq_false_iff.mpr (resetEvent_values s).phase, resetEvent_err, resetEvent_lutValid, resetEvent_done]
  rfl

theorem step_of_reset {rest : List Event} (hn : s.env.events = .reset :: rest) :
    step s = .next (resetEvent (setEvents rest s)) := by
  simp only [step, nextEvent, hn]

end

/-! ## The obligations -/

/-- Settles O2: both are `resetEvent`, after which LUT_VALID = 0 masks every entry. -/
theorem resetEventClearsAllButTheMemories : Obligations.ResetEventClearsAllButTheMemories :=
  ⟨rfl, fun s => ⟨resetEvent s, rfl, resetEvent_values s, rfl, rfl, irq_of_not_done rfl, rfl, rfl,
    statusWord_resetEvent s, lookup_of_invalid rfl, rfl, rfl⟩, fun _ _ => step_of_reset⟩

/-- Settles O17: what NOP does when accepted is the identity. -/
theorem nopChangesNothing : Obligations.NopChangesNothing :=
  ⟨rfl, fun _ => next_whenIdle_idle _⟩

/-- Settles O18: accepted, CLR is `clearResult`, and DONE = 0 takes `irq` down. -/
theorem clrClearsDoneAndErrOnly : Obligations.ClrClearsDoneAndErrOnly := by
  have haccepted : ∀ s, s.phase = .idle → exec .clr s = .next (clearResult s) := fun _ => next_whenIdle_idle clearResult
  refine ⟨rfl, haccepted, fun s t hp h => ?_, fun _ hp => congrArg _ (whenIdle_busy hp)⟩
  cases (haccepted s hp).symm.trans h
  exact irq_of_not_done rfl

/-- Settles O19: each acceptance sets PHASE to its own operation, and so BUSY. -/
theorem acceptanceStartsTheOperation : Obligations.AcceptanceStartsTheOperation := by
  have hgen : ∀ s, s.phase = .idle → exec .gen s = .next (acceptGen s) := fun _ => next_whenIdle_idle acceptGen
  have hpack : ∀ s, s.phase = .idle → exec .pack s = .next (acceptPack s) := fun _ => next_whenIdle_idle acceptPack
  have hunpack : ∀ s, s.phase = .idle → exec .unpack s = .next (acceptUnpack s) :=
    fun _ => next_whenIdle_idle acceptUnpack
  refine ⟨hgen, hpack, hunpack, fun i hi s t hp h => ?_⟩
  simp only [List.mem_cons, List.not_mem_nil, or_false] at hi
  rcases hi with rfl | rfl | rfl
  · cases (hgen s hp).symm.trans h; rfl
  · cases (hpack s hp).symm.trans h; rfl
  · cases (hunpack s hp).symm.trans h; rfl

/-- Settles O20: a word from 6 up names no command, so `registerCmd` says what its write does, idle and busy. -/
theorem illegalCommandPostsErrorOne : Obligations.IllegalCommandPostsErrorOne := by
  intro w hw
  have hnone : decodeCommand w = none := decodeCommand_eq_none_iff.mpr hw
  have hne : w ≠ 0x00000005#32 := by rintro rfl; cases hnone
  obtain ⟨-, -, -, hidle, hbusy⟩ := registerCmd
  exact ⟨fun s rest hn hp => (step_of_command_regwr hn).trans (hidle w (setEvents rest s) hnone hp),
    fun s rest hn hp => (step_of_command_regwr hn).trans (hbusy w (setEvents rest s) hp hne),
    fun s hp => ⟨_, hidle w s hnone hp, rfl, irq_of_done rfl⟩, fun s hp => hbusy w s hp hne, rfl⟩

/-- Settles O43: the completion step is `complete`, with LUT_VALID by `lutValidAfter_eq`. -/
theorem completionPostsTheResult : Obligations.CompletionPostsTheResult := by
  refine ⟨fun s op hp hq => ⟨_, engineStep_drain_empty hp hq, ?_, irq_of_done rfl⟩, fun _ _ => engineStep_drain_waits⟩
  rw [complete, lutValidAfter_eq]

end Sys2Proof.Machine

/-!
# The code table (42_code_lut.md)

`Lookup`, the codes of a valid table, one visit of GEN, and a whole GEN left to run by itself.
-/

namespace Sys2Proof.Machine

/-! ## Lookup and the codes of a valid table (rules R186 and R187) -/

theorem lookup_of_unlisted {s : State} {sym : Sym} (h : cellGet s.lut sym.toNat = none) :
    lookup s sym = ⟨false, 0#8, 0#255⟩ := by
  cases hv : s.lutValid with
  | false => exact lookup_of_invalid hv sym
  | true => simp [lookup, hv, h]

/-- Settles O34: a listed entry shows by `lookup_of_valid`; the mask and an unlisted entry each give zeros. -/
theorem lookupIsMasked : Obligations.LookupIsMasked := fun _ sym =>
  ⟨fun _ hv hc => lookup_of_valid hv hc, fun h => h.elim (fun hv => lookup_of_invalid hv sym) lookup_of_unlisted⟩

section
variable {rd : NodeIdx → NodeWord} {root : NodeIdx}

/-- A path to a Leaf goes no further, so it begins no other symbol's path. -/
theorem leadsTo_prefix_free {p q : List Bool} {x y : Sym} (hp : leadsTo rd root p x) (hq : leadsTo rd root q y)
    (h : p <+: q) : x = y := by
  obtain ⟨i, hi, hl, rfl⟩ := hp
  obtain ⟨j, hj, -, rfl⟩ := hq
  obtain ⟨post, rfl⟩ := h
  rw [walk_append_of_walk hi] at hj
  obtain rfl := walk_of_leaf hl hj
  obtain rfl := Option.some.inj hj
  rfl

end

/-- The bits of a symbol with a valid code are its path in the tree. -/
theorem leadsTo_symBits {s : State} (h : TableOf (memRead s) s.root s.lut) (hv : s.lutValid = true) {x : Sym}
    (hx : (lookup s x).v = true) : leadsTo (memRead s) s.root (symBits s x) x := by
  obtain ⟨c, hc⟩ := cellGet_of_lookup hx
  obtain ⟨p, hp, rfl⟩ := h.sound x c hc
  have ⟨i, hi, _⟩ := hp
  rw [symBits, lookup_of_valid hv hc, codeBits_codeOfPath (h.bounded p i hi)]
  exact hp

/-- Settles O7: codes are paths to leaves, and no path goes on through a Leaf. -/
theorem validCodesAreAPrefixCode : Obligations.ValidCodesAreAPrefixCode := fun _ h hv _ _ hne hx hy hpre =>
  hne (leadsTo_prefix_free (leadsTo_symBits (h.valid hv) hv hx) (leadsTo_symBits (h.valid hv) hv hy) hpre)

/-! ## GEN's stack -/

/-- Strictly falling positive path lengths, none above `n`, are at most `n` of them. -/
theorem length_le_of_falling {st : List GenItem} (hfall : st.Pairwise fun a b => b.len.toNat < a.len.toNat)
    (hpos : ∀ r ∈ st, 0 < r.len.toNat) {n : Nat} (hle : ∀ r ∈ st, r.len.toNat ≤ n) : st.length ≤ n := by
  induction st generalizing n with
  | nil => exact Nat.zero_le n
  | cons a st ih =>
    obtain ⟨hlt, hfall⟩ := List.pairwise_cons.mp hfall
    have htail : st.length ≤ a.len.toNat - 1 :=
      ih hfall (fun r hr => hpos r (.tail _ hr)) fun r hr => Nat.le_pred_of_lt (hlt r hr)
    have ha := hpos a (.head _)
    have hn := hle a (.head _)
    rw [List.length_cons]
    omega

/-- Settles O8: below the next node the path lengths fall strictly, from at most 255 to at least 1. -/
theorem genStackHoldsAtMost255Pending : Obligations.GenStackHoldsAtMost255Pending := by
  intro s it rest h hg
  obtain ⟨hfall, hbound⟩ := h.workStack _ hg
  have hlen := it.len.isLt
  refine length_le_of_falling hfall (fun r hr => (hbound r hr).1) fun r hr => ?_
  have hr' := (hbound r hr).2
  omega

/-! ## One visit of GEN (rules R181 and R183) -/

section
variable {s : State} {it : GenItem} {rest : List GenItem} {sym : Sym} {low high : NodeIdx}

theorem exec_nodeLeaf_gen (hp : s.phase = .gen) (hg : s.gen = .visiting (it :: rest)) (x : BitVec 10) :
    exec (.nodeLeaf x sym) s = .next (genLeaf sym it rest s) := by
  simp only [exec, execNodeLeaf, hp, hg]

theorem exec_nodeInternal_gen (hp : s.phase = .gen) (hg : s.gen = .visiting (it :: rest)) :
    exec (.nodeInternal low high) s = .next (genInternal low high it rest s) := by
  simp only [exec, execNodeInternal, hp, hg]

theorem genLeaf_of_unlisted (h : cellGet s.lut sym.toNat = none) : genLeaf sym it rest s =
    { s with
      lut := cellPut s.lut sym.toNat { len := it.len, value := it.path }
      cnt := s.cnt + 1#32
      gen := .visiting rest } := by
  simp only [genLeaf, h]

theorem genLeaf_of_listed (h : cellGet s.lut sym.toNat ≠ none) : genLeaf sym it rest s = finish .gen .dupSym s := by
  obtain ⟨c, hc⟩ := Option.ne_none_iff_exists'.mp h
  simp only [genLeaf, hc]

theorem genInternal_of_ne_maxLen (h : it.len ≠ Config.maxLen) : genInternal low high it rest s =
    { s with
      gen := .visiting
        ({ node := low, path := appendPath it.path false, len := it.len + 1#8 } ::
         { node := high, path := appendPath it.path true, len := it.len + 1#8 } :: rest) } := if_neg h

theorem genInternal_of_eq_maxLen (h : it.len = Config.maxLen) :
    genInternal low high it rest s = finish .gen .treeDepth s := if_pos h

end

theorem toNat_appendPath (p : CodeVal) (b : Bool) : (appendPath p b).toNat = (2 * p.toNat + b.toNat) % 2 ^ 255 := by
  have hb := b.toNat_lt
  rw [appendPath_eq_shiftConcat, BitVec.toNat_shiftConcat, Nat.shiftLeft_eq]
  omega

/-- Settles O45: the entry is written by `cellPut`, which leaves the other symbols alone. -/
theorem genVisitsALeaf : Obligations.GenVisitsALeaf := by
  intro s it rest x sym hp hg
  have hexec := exec_nodeLeaf_gen (sym := sym) hp hg x
  exact ⟨fun hn => ⟨_, hexec.trans (congrArg _ (genLeaf_of_unlisted hn)), cellGet_cellPut_same _ _ _,
      fun y hy => cellGet_cellPut_other _ _ fun h => hy (BitVec.eq_of_toNat_eq h)⟩,
    fun hn => hexec.trans (congrArg _ (genLeaf_of_listed hn))⟩

/-- Settles O46: below length 255 the length does not wrap, and `appendPath` doubles the value and adds the bit. -/
theorem genVisitsAnInternalNode : Obligations.GenVisitsAnInternalNode := by
  intro s it rest low high hp hg
  have hexec := exec_nodeInternal_gen (low := low) (high := high) hp hg
  exact ⟨fun hlen => ⟨_, _, hexec.trans (congrArg _ (genInternal_of_ne_maxLen hlen)), rfl, rfl,
      toNat_succ_of_ne_maxLen hlen, rfl, toNat_appendPath it.path false, toNat_appendPath it.path true⟩,
    fun hlen => hexec.trans (congrArg _ (genInternal_of_eq_maxLen hlen))⟩

/-! ## The free run: what the block comes to with no event to come (log 1) -/

/-- In finitely many steps `s` comes to `t`. -/
def Reaches (s t : State) : Prop := ∃ k, runSteps k s = .next t

theorem Reaches.of_step {s t : State} (h : step s = .next t) : Reaches s t := ⟨1, by simp only [runSteps, h]⟩

theorem Reaches.trans {s t u : State} (hst : Reaches s t) (htu : Reaches t u) : Reaches s u := by
  obtain ⟨j, hj⟩ := hst
  obtain ⟨k, hk⟩ := htu
  exact ⟨j + k, by simp only [runSteps_add, hj, hk]⟩

/-- With no event to come, an enabled engine moves first. -/
theorem step_of_engineEnabled {s : State} (he : s.env.events = []) (hen : engineEnabled s = true) :
    step s = engineStep s := by
  simp only [step, nextEvent, he, freeRun, hen, if_true]

/-! ## GEN left to run -/

/-- `s`, a state in GEN, with `stack` to visit, `lut` recorded and `cnt` counted. -/
def genAt (s : State) (lut : CodeTable) (cnt : Word) (stack : List GenItem) : State :=
  { s with lut := lut, cnt := cnt, gen := .visiting stack }

/-- `s`, a state in GEN, once `finish` is called with `e`. -/
def genEnd (s : State) (lut : CodeTable) (cnt : Word) (e : ErrCode) : State :=
  { s with lut := lut, cnt := cnt, penderr := e, phase := .drain .gen, gen := .fresh }

section
variable {s : State} {lut : CodeTable} {cnt : Word} {it : GenItem} {rest : List GenItem}

theorem finish_genAt (e : ErrCode) (stack : List GenItem) :
    finish .gen e (genAt s lut cnt stack) = genEnd s lut cnt e := rfl

theorem engineStep_genDone (hp : s.phase = .gen) (hg : s.gen = .visiting []) :
    engineStep s = .next (finish .gen .none s) := by
  simp only [engineStep, hp, hg]

theorem step_gen (hp : s.phase = .gen) (he : s.env.events = []) : step s = engineStep s :=
  step_of_engineEnabled he (by simp only [engineEnabled, hp])

theorem step_genStart (hp : s.phase = .gen) (he : s.env.events = []) (hg : s.gen = .fresh) :
    step s = .next (genAt s [] s.cnt [{ node := s.root, path := 0#255, len := 0#8 }]) := by
  rw [step_gen hp he]
  simp only [engineStep, hp, hg, genStart, genAt]

theorem step_genAt_nil (hp : s.phase = .gen) (he : s.env.events = []) :
    step (genAt s lut cnt []) = .next (genEnd s lut cnt .none) :=
  (step_gen (s := genAt s lut cnt []) hp he).trans (engineStep_genDone (s := genAt s lut cnt []) hp rfl)

theorem step_genAt_leaf (hp : s.phase = .gen) (he : s.env.events = []) (hl : isInternal (memRead s it.node) = false) :
    step (genAt s lut cnt (it :: rest)) =
      .next (genLeaf (symOf (memRead s it.node)) it rest (genAt s lut cnt (it :: rest))) :=
  (step_gen (s := genAt s lut cnt (it :: rest)) hp he).trans
    (engineStep_genLeaf (s := genAt s lut cnt (it :: rest)) hp rfl hl)

theorem step_genAt_internal (hp : s.phase = .gen) (he : s.env.events = [])
    (hi : isInternal (memRead s it.node) = true) :
    step (genAt s lut cnt (it :: rest)) = .next (genInternal (lowOf (memRead s it.node))
      (highOf (memRead s it.node)) it rest (genAt s lut cnt (it :: rest))) :=
  (step_gen (s := genAt s lut cnt (it :: rest)) hp he).trans
    (engineStep_genInternal (s := genAt s lut cnt (it :: rest)) hp rfl hi)

theorem step_genEnd (he : s.env.events = []) (hq : s.oq = []) (e : ErrCode) :
    step (genEnd s lut cnt e) = .next (complete .gen (genEnd s lut cnt e)) :=
  (step_of_engineEnabled (s := genEnd s lut cnt e) he
    (by simp only [engineEnabled, genEnd, hq, List.isEmpty_nil])).trans
    (engineStep_drain_empty (s := genEnd s lut cnt e) rfl hq)

end

/-! ## The visit of a subtree (rules R182 and R184) -/

section
variable {rd : NodeIdx → NodeWord} {root : NodeIdx} {t t' : CodeTable} {p q : List Bool}

/-- In a well-formed tree a symbol has one path. -/
theorem TreeWf.leadsTo_unique (h : TreeWf rd root) {sym : Sym} (hp : leadsTo rd root p sym)
    (hq : leadsTo rd root q sym) : p = q := by
  obtain ⟨i, hi, hli, hsi⟩ := hp
  obtain ⟨j, hj, hlj, hsj⟩ := hq
  obtain rfl := h.oneLeaf p q i j hi hj hli hlj (hsi.trans hsj.symm)
  exact h.onePath p q i hi hj

/-- Nothing below `p` is recorded yet: every symbol listed is met by a path that does not pass through `p`. -/
def ClearOf (rd : NodeIdx → NodeWord) (root : NodeIdx) (p : List Bool) (t : CodeTable) : Prop :=
  ∀ sym : Sym, cellGet t sym.toNat ≠ none → ∃ q, leadsTo rd root q sym ∧ ¬ p <+: q

/-- From `t` to `t'` only symbols below `p` have come in. -/
def AddsBelow (rd : NodeIdx → NodeWord) (root : NodeIdx) (p : List Bool) (t t' : CodeTable) : Prop :=
  ∀ sym : Sym, cellGet t' sym.toNat ≠ none →
    cellGet t sym.toNat ≠ none ∨ ∃ q, leadsTo rd root q sym ∧ p <+: q

theorem ClearOf.child (h : ClearOf rd root p t) (b : Bool) : ClearOf rd root (p ++ [b]) t := fun sym hsym => by
  obtain ⟨q, hq, hpre⟩ := h sym hsym
  exact ⟨q, hq, fun hpq => hpre ((List.prefix_append p [b]).trans hpq)⟩

/-- What comes in below the low child leaves the high child's subtree clear. -/
theorem ClearOf.high (h : ClearOf rd root p t) (hadd : AddsBelow rd root (p ++ [false]) t t') :
    ClearOf rd root (p ++ [true]) t' := fun sym hsym => by
  rcases hadd sym hsym with hold | ⟨q, hq, hlow⟩
  · exact h.child true sym hold
  · refine ⟨q, hq, fun hhigh => ?_⟩
    have hsame := (List.prefix_of_prefix_length_le hlow hhigh (by simp)).eq_of_length (by simp)
    simp at hsame

theorem AddsBelow.parent {b : Bool} (h : AddsBelow rd root (p ++ [b]) t t') : AddsBelow rd root p t t' :=
  fun sym hsym => (h sym hsym).imp_right fun ⟨q, hq, hpre⟩ => ⟨q, hq, (List.prefix_append p [b]).trans hpre⟩

theorem AddsBelow.trans {t'' : CodeTable} (h : AddsBelow rd root p t t') (h' : AddsBelow rd root p t' t'') :
    AddsBelow rd root p t t'' := fun sym hsym => (h' sym hsym).elim (h sym) .inr

theorem addsBelow_cellPut {sym : Sym} (hp : leadsTo rd root p sym) (c : Code) :
    AddsBelow rd root p t (cellPut t sym.toNat c) := fun y hy => by
  by_cases hys : y = sym
  · subst hys; exact .inr ⟨p, hp, List.prefix_refl p⟩
  · rw [cellGet_cellPut_other _ _ fun h => hys (BitVec.eq_of_toNat_eq h)] at hy
    exact .inl hy

/-- A symbol met again below a clear path has two paths. -/
theorem ClearOf.not_treeWf (h : ClearOf rd root p t) {sym : Sym} (hp : leadsTo rd root p sym)
    (hsym : cellGet t sym.toNat ≠ none) : ¬ TreeWf rd root := fun hwf => by
  obtain ⟨q, hq, hpre⟩ := h sym hsym
  exact hpre (hwf.leadsTo_unique hp hq ▸ List.prefix_refl p)

/-- A pending Internal node at length 255 is deeper than a well-formed tree allows. -/
theorem ItemAt.not_treeWf {it : GenItem} (h : ItemAt rd root p it) (hi : isInternal (rd it.node) = true)
    (hlen : it.len = Config.maxLen) : ¬ TreeWf rd root := fun hwf => by
  obtain ⟨hw, -, -, hl⟩ := h
  have hleaf := (hwf.bounded p it.node hw).2 (by rw [← hl, hlen]; rfl)
  simp [hi] at hleaf

end

/-- From `u` GEN comes to visit `rest` next, having recorded what lies below `p`. -/
def VisitsBelow (s u : State) (p : List Bool) (rest : List GenItem) (lut : CodeTable) : Prop :=
  ∃ lut' cnt', Reaches u (genAt s lut' cnt' rest) ∧ Visiting (memRead s) s.root rest lut' ∧
    AddsBelow (memRead s) s.root p lut lut'

/-- From `u` GEN ends with an error, and rightly so. -/
def GenFails (s u : State) : Prop :=
  ¬ TreeWf (memRead s) s.root ∧ ∃ lut cnt e, e ≠ .none ∧ Reaches u (genEnd s lut cnt e)

theorem GenFails.of_reaches {s u v : State} (h : Reaches u v) (hv : GenFails s v) : GenFails s u := by
  obtain ⟨hwf, lut, cnt, e, hne, hr⟩ := hv
  exact ⟨hwf, lut, cnt, e, hne, h.trans hr⟩

section
variable {s : State} (hp : s.phase = .gen) (he : s.env.events = [])
include hp he

/-- GEN at a Leaf. -/
theorem genAt_leaf {it : GenItem} {rest : List GenItem} {lut : CodeTable} {cnt : Word} {p : List Bool}
    (hat : ItemAt (memRead s) s.root p it) (hv : Visiting (memRead s) s.root (it :: rest) lut)
    (hc : ClearOf (memRead s) s.root p lut) (hl : isInternal (memRead s it.node) = false) :
    VisitsBelow s (genAt s lut cnt (it :: rest)) p rest lut ∨ GenFails s (genAt s lut cnt (it :: rest)) := by
  have hstep := step_genAt_leaf (lut := lut) (cnt := cnt) (rest := rest) hp he hl
  have hlead : leadsTo (memRead s) s.root p (symOf (memRead s it.node)) := ⟨it.node, hat.1, hl, rfl⟩
  by_cases hn : cellGet lut (symOf (memRead s it.node)).toNat = none
  · rw [genLeaf_of_unlisted hn] at hstep
    exact .inl ⟨_, _, .of_step hstep, hv.record hl hn, addsBelow_cellPut hlead _⟩
  · rw [genLeaf_of_listed hn, finish_genAt] at hstep
    exact .inr ⟨hc.not_treeWf hlead hn, _, _, .dupSym, nofun, .of_step hstep⟩

/-- GEN visits the subtree of the node on top of its stack wholly, or fails in it, by recursion on the depth left. -/
theorem genAt_subtree {it : GenItem} {rest : List GenItem} {lut : CodeTable} {cnt : Word} {p : List Bool}
    (hat : ItemAt (memRead s) s.root p it) (hv : Visiting (memRead s) s.root (it :: rest) lut)
    (hc : ClearOf (memRead s) s.root p lut) :
    VisitsBelow s (genAt s lut cnt (it :: rest)) p rest lut ∨ GenFails s (genAt s lut cnt (it :: rest)) := by
  cases hi : isInternal (memRead s it.node) with
  | false => exact genAt_leaf hp he hat hv hc hi
  | true =>
    have hstep := step_genAt_internal (lut := lut) (cnt := cnt) (rest := rest) hp he hi
    by_cases hlen : it.len = Config.maxLen
    · rw [genInternal_of_eq_maxLen hlen, finish_genAt] at hstep
      exact .inr ⟨hat.not_treeWf hi hlen, _, _, .treeDepth, nofun, .of_step hstep⟩
    · rw [genInternal_of_ne_maxLen hlen] at hstep
      -- the children are within the 255 edges a path may have, so there is less depth left below them
      have hle : p.length + 1 ≤ 255 := by simpa using (hat.child hi hlen false).2.1
      rcases genAt_subtree (cnt := cnt) (hat.child hi hlen false) (hv.push hi hlen) (hc.child false) with
        ⟨lut₁, cnt₁, hlow, hv₁, hadd₁⟩ | hfail
      · have hreach := (Reaches.of_step hstep).trans hlow
        rcases genAt_subtree (cnt := cnt₁) (hat.child hi hlen true) hv₁ (hc.high hadd₁) with
          ⟨lut₂, cnt₂, hhigh, hv₂, hadd₂⟩ | hfail
        · exact .inl ⟨lut₂, cnt₂, hreach.trans hhigh, hv₂, hadd₁.parent.trans hadd₂.parent⟩
        · exact .inr (hfail.of_reaches hreach)
      · exact .inr (hfail.of_reaches (.of_step hstep))
termination_by 255 - p.length
decreasing_by all_goals simp only [List.length_append, List.length_singleton]; omega

/-- From its first statement on GEN comes to its end, without error exactly when the tree is well formed. -/
theorem gen_reaches_end (hg : s.gen = .fresh) :
    ∃ lut cnt e, Reaches s (genEnd s lut cnt e) ∧ (e = .none ↔ TreeWf (memRead s) s.root) := by
  have hstart := Reaches.of_step (step_genStart hp he hg)
  have hroot : ItemAt (memRead s) s.root [] { node := s.root, path := 0#255, len := 0#8 } :=
    ⟨rfl, by simp, rfl, rfl⟩
  rcases genAt_subtree hp he (cnt := s.cnt) hroot .start (fun sym h => absurd rfl h) with
    ⟨lut, cnt, hr, hv, -⟩ | ⟨hwf, lut, cnt, e, hne, hr⟩
  · exact ⟨lut, cnt, .none, (hstart.trans hr).trans (.of_step (step_genAt_nil hp he)),
      fun _ => hv.tableOf.treeWf, fun _ => rfl⟩
  · exact ⟨lut, cnt, e, hstart.trans hr, fun h => absurd h hne, fun h => absurd h hwf⟩

end

/-- Settles O48: `gen_reaches_end` from the accepted GEN, then the completion step. -/
theorem genSucceedsExactlyOnWellFormedTrees : Obligations.GenSucceedsExactlyOnWellFormedTrees := by
  intro s hp hq he
  obtain ⟨lut, cnt, e, hend, hiff⟩ := gen_reaches_end (s := acceptGen s) rfl he rfl
  obtain ⟨k, hk⟩ := hend.trans (.of_step (step_genEnd (s := acceptGen s) he hq e))
  refine ⟨k, _, _, next_whenIdle_idle acceptGen hp, hk, rfl, rfl, hiff, ?_, rfl, rfl⟩
  rw [complete_lutValid, lutValidAfter_eq]
  cases e <;> rfl

end Sys2Proof.Machine

/-!
# PACK (43_pack.md)

The accumulator as the bit string written into it, one pass of PACK, and a whole operation left to run by itself.
-/

namespace Sys2Proof.Machine

/-! ## Bytes and their bits (20_memory.md rule R75) -/

theorem length_bitsOfByte (a : Byte) : (bitsOfByte a).length = 8 := rfl

theorem take_bitsOfByte (a : Byte) {n : Nat} (hn : n ≤ 8) :
    (bitsOfByte a).take n = (List.range n).map fun k => a.getLsbD (7 - k) := by
  rw [bitsOfByte, ← List.map_take, List.take_range, Nat.min_eq_left hn]

theorem byteOfBits_bitsOfByte (a : Byte) : byteOfBits (bitsOfByte a) = a := by
  revert a
  decide

theorem getLsbD_setBit {i k : Nat} (a : Byte) (b : Bool) (hi : i < 8) :
    (setBit a i b).getLsbD k = if k = i then b else a.getLsbD k := by
  rcases lt_trichotomy k i with hk | rfl | hk
  · rw [getLsbD_setBit_of_lt b hk hi, if_neg hk.ne]
  · simp [setBit, hi]
  · have hpos : k - i ≠ 0 := by omega
    by_cases hk8 : k < 8
    · simp [setBit, hk8, hk.ne', hpos, hk.not_gt]
    · simp [setBit, hk8, hk.ne', BitVec.getLsbD_of_ge a k (by omega)]

/-- The bit at the highest free position is the next one of the byte. -/
theorem take_bitsOfByte_setBit (a : Byte) (b : Bool) {n : Nat} (hn : n < 8) :
    (bitsOfByte (setBit a (7 - n) b)).take (n + 1) = (bitsOfByte a).take n ++ [b] := by
  rw [take_bitsOfByte _ hn, take_bitsOfByte _ hn.le, List.range_succ, List.map_append, List.map_singleton,
    getLsbD_setBit a b (by omega), if_pos rfl]
  refine congrArg (· ++ [b]) (List.map_congr_left fun k hk => ?_)
  have hk := List.mem_range.mp hk
  rw [getLsbD_setBit a b (by omega), if_neg (by omega)]

theorem getElem_bitsOfByte (a : Byte) {k : Nat} (hk : k < (bitsOfByte a).length) :
    (bitsOfByte a)[k] = a.getLsbD (7 - k) :=
  (List.getElem_map _).trans (congrArg (fun k => a.getLsbD (7 - k)) (List.getElem_range _))

/-- A byte whose low positions are 0 is its high bits padded with zeros. -/
theorem bitsOfByte_of_accLow {a : Byte} {n : Nat} (h : a <<< n = 0#8) :
    bitsOfByte a = (bitsOfByte a).take n ++ List.replicate (8 - n) false := by
  conv_lhs => rw [← List.take_append_drop n (bitsOfByte a)]
  refine congrArg _ (List.eq_replicate_iff.mpr ⟨by rw [List.length_drop, length_bitsOfByte], fun x hx => ?_⟩)
  obtain ⟨k, hk, rfl⟩ := List.getElem_of_mem hx
  rw [List.length_drop, length_bitsOfByte] at hk
  have hzero : (a <<< n).getLsbD (7 - k) = false := by rw [h, BitVec.getLsbD_zero]
  rw [BitVec.getLsbD_shiftLeft, show 7 - k - n = 7 - (n + k) by omega] at hzero
  simp only [show 7 - k < 8 by omega, show ¬ 7 - k < n by omega, decide_true, decide_false, Bool.not_false,
    Bool.true_and] at hzero
  rw [List.getElem_drop, getElem_bitsOfByte, hzero]

/-! ## The append step (rules R203 and R209) -/

/-- The bits written so far: those of the bytes output, then those held in ACC. -/
def writtenBits (w : BitWriter) : List Bool := w.out.flatMap bitsOfByte ++ (bitsOfByte w.acc).take w.fill.toNat

theorem length_heldBits (w : BitWriter) : ((bitsOfByte w.acc).take w.fill.toNat).length = w.fill.toNat := by
  rw [List.length_take, length_bitsOfByte, Nat.min_eq_left w.fill.isLt.le]

theorem writtenBits_putBit (w : BitWriter) (b : Bool) : writtenBits (putBit w b) = writtenBits w ++ [b] := by
  have hput := take_bitsOfByte_setBit w.acc b w.fill.isLt
  unfold putBit
  by_cases hf : w.fill = 7#3
  · have hfull (a : Byte) : (bitsOfByte a).take (w.fill.toNat + 1) = bitsOfByte a := by rw [hf]; rfl
    rw [hfull] at hput
    simp [if_pos hf, writtenBits, hput]
  · have hne : w.fill.toNat ≠ 7 := fun e => hf (BitVec.eq_of_toNat_eq e)
    have hfill : (w.fill + 1#3).toNat = w.fill.toNat + 1 := by bv_omega
    simp [writtenBits, hf, hfill, hput]

/-- No bit is lost and none is added, for every string and every fill. -/
theorem writtenBits_putBits (w : BitWriter) (bits : List Bool) :
    writtenBits (putBits w bits) = writtenBits w ++ bits := by
  induction bits generalizing w with
  | nil => simp
  | cons b bits ih => simp [ih, writtenBits_putBit]

theorem length_writtenBits (w : BitWriter) : (writtenBits w).length = 8 * w.out.length + w.fill.toNat := by
  simp [writtenBits, -List.length_take, length_heldBits, List.length_flatMap, length_bitsOfByte, Nat.mul_comm]

/-- What was output before stays in front. -/
theorem putBits_out (w : BitWriter) (bits : List Bool) (pre : List Byte) :
    putBits { w with out := pre ++ w.out } bits =
      { putBits w bits with out := pre ++ (putBits w bits).out } := by
  induction bits generalizing w with
  | nil => rfl
  | cons b bits ih =>
    have hput : putBit { w with out := pre ++ w.out } b = { putBit w b with out := pre ++ (putBit w b).out } := by
      by_cases hf : w.fill = 7#3 <;> simp [putBit, hf]
    rw [putBits_cons, hput, ih, putBits_cons]

/-- Bits are appended as into a writer that has output nothing yet. -/
theorem putBits_eq (w : BitWriter) (bits : List Bool) :
    putBits w bits = { putBits ⟨w.acc, w.fill, []⟩ bits with
      out := w.out ++ (putBits ⟨w.acc, w.fill, []⟩ bits).out } := by
  simpa using putBits_out ⟨w.acc, w.fill, []⟩ bits w.out

/-- Settles O51: the bits written grow by the string, and their number fixes the bytes output and FILL. -/
theorem appendPlacesEveryBit : Obligations.AppendPlacesEveryBit := by
  intro w bits hlow
  have hbits := writtenBits_putBits ⟨w.acc, w.fill, []⟩ bits
  have hlen := congrArg List.length hbits
  simp only [List.length_append, length_writtenBits, List.length_nil] at hlen
  have hlt := (putBits ⟨w.acc, w.fill, []⟩ bits).fill.isLt
  have hlow' := putBits_accLow hlow bits
  rw [putBits_eq] at hlow' ⊢
  exact ⟨_, rfl, by omega, by dsimp only; omega, hbits, hlow'⟩

/-! ## The packed bitstream (30_encoding.md rule R112) -/

theorem packed_bitsOfByte_append (a : Byte) (bits : List Bool) : packed (bitsOfByte a ++ bits) = a :: packed bits := by
  conv_rhs => rw [← byteOfBits_bitsOfByte a]
  rfl

theorem packed_flatMap_bitsOfByte_append (bytes : List Byte) (bits : List Bool) :
    packed (bytes.flatMap bitsOfByte ++ bits) = bytes ++ packed bits := by
  induction bytes with
  | nil => rfl
  | cons a bytes ih => rw [List.flatMap_cons, List.append_assoc, packed_bitsOfByte_append, ih, List.cons_append]

/-- Less than a byte, but something, is padded to one byte. -/
theorem packed_of_short {bits : List Bool} (hne : bits ≠ []) (hlen : bits.length < 8) :
    packed bits = [byteOfBits (bits ++ List.replicate (8 - bits.length) false)] := by
  unfold packed
  split
  · exact absurd rfl hne
  · simp only [List.length_cons] at hlen; omega
  · rfl

/-- The partial byte that the flush outputs, if there is one (rule R204). -/
def partialByte (w : BitWriter) : List Byte := if w.fill = 0#3 then [] else [w.acc]

/-- The bits held are packed into the partial byte. -/
theorem packed_heldBits {w : BitWriter} (h : w.acc <<< w.fill.toNat = 0#8) :
    packed ((bitsOfByte w.acc).take w.fill.toNat) = partialByte w := by
  by_cases hf : w.fill = 0#3
  · simp [partialByte, hf, packed]
  · have hlt := w.fill.isLt
    have hpos : w.fill.toNat ≠ 0 := fun e => hf (BitVec.eq_of_toNat_eq e)
    have hlen := length_heldBits w
    rw [partialByte, if_neg hf, packed_of_short (fun e => hpos (by rw [← hlen, e, List.length_nil])) (by omega), hlen,
      ← bitsOfByte_of_accLow h, byteOfBits_bitsOfByte]

theorem packed_writtenBits {w : BitWriter} (h : w.acc <<< w.fill.toNat = 0#8) :
    packed (writtenBits w) = w.out ++ partialByte w := by
  rw [writtenBits, packed_flatMap_bitsOfByte_append, packed_heldBits h]

/-- From an empty accumulator, the bytes output and the flushed byte are the packed bitstream. -/
theorem packed_eq_putBits (bits : List Bool) :
    packed bits = (putBits ⟨0#8, 0#3, []⟩ bits).out ++ partialByte (putBits ⟨0#8, 0#3, []⟩ bits) := by
  rw [← packed_writtenBits (putBits_accLow rfl bits), writtenBits_putBits]
  rfl

/-! ## One pass of PACK (rules R201 to R206) -/

section
variable {s : State}

theorem engineStep_pack (hp : s.phase = .pack) : engineStep s = .next (packPass s) := by
  simp only [engineStep, hp]

theorem packNoLut_eq_true_iff : packNoLut s = true ↔ s.cnt = 0#32 ∧ s.nsym ≠ 0#32 ∧ s.lutValid = false := by
  simp [packNoLut, and_assoc]

theorem packPass_of_noLut (h : packNoLut s = true) : packPass s = finish .pack .noLut s := if_pos h

theorem packPass_of_done (hc : s.cnt = s.nsym) : packPass s = finish .pack .none (flush s) := by
  have hn : ¬ packNoLut s = true := fun h => by
    obtain ⟨h0, hne, -⟩ := packNoLut_eq_true_iff.mp h
    exact hne (hc ▸ h0)
  rw [packPass, if_neg hn, if_pos hc]

theorem packNoLut_of_lutValid (hv : s.lutValid = true) : packNoLut s = false := by
  simp [packNoLut, hv]

theorem packPass_of_eos (hv : s.lutValid = true) (hc : s.cnt ≠ s.nsym) (hi : inNext s = .eos) :
    packPass s = finish .pack .underrun s := by
  simp [packPass, packNoLut_of_lutValid hv, hc, hi]

theorem packPass_of_noCode {b : Byte} (hv : s.lutValid = true) (hc : s.cnt ≠ s.nsym) (hi : inNext s = .byte b)
    (hb : (lookup s b).v = false) : packPass s = finish .pack .noCode (takeByte s) := by
  simp [packPass, packNoLut_of_lutValid hv, hc, hi, hb]

/-- Only a valid table has codes (42_code_lut.md rule R186). -/
theorem lutValid_of_lookup {b : Byte} (hb : (lookup s b).v = true) : s.lutValid = true := by
  cases hv : s.lutValid with
  | true => rfl
  | false => rw [lookup_of_invalid hv] at hb; cases hb

theorem packPass_of_code {b : Byte} (hc : s.cnt ≠ s.nsym) (hi : inNext s = .byte b) (hb : (lookup s b).v = true) :
    packPass s = packSymbol (lookup s b) (takeByte s) := by
  simp [packPass, packNoLut_of_lutValid (lutValid_of_lookup hb), hc, hi, hb]

theorem takeByte_of_source {b : Byte} {rest : List Byte} (hs : s.env.source = b :: rest) :
    takeByte s = { s with env := { s.env with source := rest } } := by
  rw [takeByte, hs, List.tail_cons]

/-- After the last symbol the partial byte is flushed, and `finish` is called with no error (rule R204). -/
theorem engineStep_packDone (hp : s.phase = .pack) (hc : s.cnt = s.nsym) :
    engineStep s = .next (finish .pack .none (flush s)) :=
  (engineStep_pack hp).trans (congrArg _ (packPass_of_done hc))

end

/-- Settles O49: the branch of `packPass` that each ending names. -/
theorem packPassEndsTheOperation : Obligations.PackPassEndsTheOperation := by
  intro s hp
  refine ⟨fun h0 hn hv => ?_, fun hc hf => ?_, fun hc hf => ?_, fun hc hv hs he => ?_, fun b rest hc hv hs hb => ?_⟩
  · rw [engineStep_pack hp, packPass_of_noLut (packNoLut_eq_true_iff.mpr ⟨h0, hn, hv⟩)]; rfl
  · rw [engineStep_packDone hp hc, flush, if_pos hf]; rfl
  · rw [engineStep_packDone hp hc, flush, if_neg hf]; rfl
  · rw [engineStep_pack hp, packPass_of_eos hv hc (inNext_eos.mpr ⟨hs, he⟩)]; rfl
  · rw [engineStep_pack hp, packPass_of_noCode hv hc (inNext_byte.mpr ⟨rest, hs⟩) hb, takeByte_of_source hs]; rfl

/-- Settles O50: the pass is `packSymbol` once the byte is taken. -/
theorem packPassPacksOneSymbol : Obligations.PackPassPacksOneSymbol := by
  intro s b rest hp hc hs hb
  refine ⟨_, rfl, ?_⟩
  rw [engineStep_pack hp, packPass_of_code hc (inNext_byte.mpr ⟨rest, hs⟩) hb, takeByte_of_source hs]
  rfl

/-! ## The end of a run: OQ is drained and the result posted (41_control_commands.md rule R166) -/

theorem runSteps_succ {s t : State} (h : step s = .next t) (k : Nat) : runSteps (k + 1) s = runSteps k t := by
  simp only [runSteps, h]

theorem runSteps_trans {s t : State} {j : Nat} (h : runSteps j s = .next t) (k : Nat) :
    runSteps (j + k) s = runSteps k t := by
  simp only [runSteps_add, h]

/-- With no event to come and OQ not empty, a ready sink takes its head. -/
theorem step_drain_cons {s : State} {op : Op} {b : Byte} {q : List Byte} (hp : s.phase = .drain op)
    (he : s.env.events = []) (hr : s.env.sinkReady = true) (hq : s.oq = b :: q) :
    step s = .next { s with oq := q, env := { s.env with delivered := s.env.delivered ++ [b] } } := by
  simp [step, nextEvent, he, freeRun, engineEnabled, hp, hq, hr, sinkTransfer]

theorem step_drain_nil {s : State} {op : Op} (hp : s.phase = .drain op) (he : s.env.events = []) (hq : s.oq = []) :
    step s = .next (complete op s) :=
  (step_of_engineEnabled he (by simp [engineEnabled, hp, hq])).trans (engineStep_drain_empty hp hq)

/-- The sink takes all of OQ, one byte a step, and then the operation completes. -/
theorem runSteps_drain {s : State} {op : Op} (hp : s.phase = .drain op) (he : s.env.events = [])
    (hr : s.env.sinkReady = true) : runSteps (s.oq.length + 1) s = .next (complete op
      { s with oq := [], env := { s.env with delivered := s.env.delivered ++ s.oq } }) := by
  generalize hq : s.oq = q
  induction q generalizing s with
  | nil =>
    rw [List.append_nil]
    conv_rhs => rw [← hq]
    exact runSteps_succ (step_drain_nil hp he hq) 0
  | cons b q ih =>
    rw [List.length_cons, runSteps_succ (step_drain_cons hp he hr hq),
      ih (s := { s with oq := q, env := { s.env with delivered := s.env.delivered ++ [b] } }) hp he hr rfl]
    simp

/-! ## PACK left to run (rule R210) -/

/-- `s`, a state in PACK, with `w` as its accumulator and queue, `cnt` symbols counted and `src` still to read. -/
def packAt (s : State) (w : BitWriter) (cnt : Word) (src : List Byte) : State :=
  { s with acc := w.acc, fill := w.fill, oq := w.out, cnt := cnt, env := { s.env with source := src } }

/-- `s`, a state in PACK, once `finish` is called without error, with `out` to deliver and `src` left at the source. -/
def packEnd (s : State) (out src : List Byte) : State :=
  { s with
    acc := 0#8, fill := 0#3, oq := out, cnt := s.nsym, penderr := .none, phase := .drain .pack, gen := .fresh
    env := { s.env with source := src } }

section
variable {s : State} {w : BitWriter} {src : List Byte}

/-- In PACK, with the source showing a byte or no symbol missing, the engine moves. -/
theorem step_pack (hp : s.phase = .pack) (he : s.env.events = []) (hi : s.cnt = s.nsym ∨ inNext s ≠ .nothing) :
    step s = engineStep s :=
  step_of_engineEnabled he (by simp only [engineEnabled, inReady, hp]; rcases hi with hi | hi <;> simp [hi])

theorem step_packAt_cons {b : Byte} {cnt : Word} (hp : s.phase = .pack) (he : s.env.events = [])
    (hc : cnt ≠ s.nsym) (hb : (lookup s b).v = true) :
    step (packAt s w cnt (b :: src)) = .next (packAt s (putBits w (symBits s b)) (cnt + 1#32) src) := by
  obtain ⟨_, rfl, hstep⟩ := packPassPacksOneSymbol (packAt s w cnt (b :: src)) b src hp hc rfl hb
  have hi : inNext (packAt s w cnt (b :: src)) ≠ .nothing := by
    rw [inNext_byte.mpr ⟨src, rfl⟩]; nofun
  rw [step_pack (s := packAt s w cnt (b :: src)) hp he (.inr hi), hstep, putBits_eq w]
  rfl

/-- Every symbol missing is packed, one a step. -/
theorem runSteps_packAt (hp : s.phase = .pack) (he : s.env.events = []) {syms : List Sym}
    (hcodes : ∀ x ∈ syms, (lookup s x).v = true) {cnt : Word} (hcnt : cnt.toNat + syms.length = s.nsym.toNat) :
    runSteps syms.length (packAt s w cnt (syms ++ src)) =
      .next (packAt s (putBits w (bitString s syms)) s.nsym src) := by
  induction syms generalizing w cnt with
  | nil => rw [BitVec.eq_of_toNat_eq hcnt]; rfl
  | cons b syms ih =>
    obtain ⟨hb, hcodes⟩ := List.forall_mem_cons.mp hcodes
    rw [List.length_cons] at hcnt ⊢
    have hlt := s.nsym.isLt
    have hc : cnt ≠ s.nsym := fun e => by rw [e] at hcnt; omega
    have hsucc : (cnt + 1#32).toNat + syms.length = s.nsym.toNat := by
      rw [BitVec.toNat_add, BitVec.toNat_ofNat]; omega
    rw [List.cons_append, runSteps_succ (step_packAt_cons hp he hc hb), ih hcodes hsucc, ← putBits_append]
    rfl

/-- After the last symbol the partial byte goes to OQ, and ACC is 0 whether or not there was one. -/
theorem step_packAt_done (hp : s.phase = .pack) (he : s.env.events = []) (hlow : w.acc <<< w.fill.toNat = 0#8) :
    step (packAt s w s.nsym src) = .next (packEnd s (w.out ++ partialByte w) src) := by
  obtain ⟨-, hdone, hflush, -⟩ := packPassEndsTheOperation (packAt s w s.nsym src) hp
  rw [step_pack (s := packAt s w s.nsym src) hp he (.inl rfl)]
  by_cases hf : w.fill = 0#3
  · have hacc : w.acc = 0#8 := by simpa [hf] using hlow
    rw [hdone rfl hf, partialByte, if_pos hf, List.append_nil, packAt, packEnd, hf, hacc]
  · rw [hflush rfl hf, partialByte, if_neg hf]
    rfl

end

/-- From its acceptance PACK comes to its end with the packed bitstream to deliver: a step for each symbol, and one for
the flush. -/
theorem runSteps_acceptPack {s : State} {syms : List Sym} {rest : List Byte} (hq : s.oq = []) (he : s.env.events = [])
    (hs : s.env.source = syms ++ rest) (hn : s.nsym.toNat = syms.length)
    (hcodes : ∀ x ∈ syms, (lookup s x).v = true) :
    runSteps (syms.length + 1) (acceptPack s) =
      .next (packEnd (acceptPack s) (packed (bitString s syms)) rest) := by
  have hstart : acceptPack s = packAt (acceptPack s) ⟨0#8, 0#3, []⟩ 0#32 (syms ++ rest) := by
    rw [packAt, ← hs, ← hq]
    rfl
  have hsyms : runSteps syms.length (acceptPack s) =
      .next (packAt (acceptPack s) (putBits ⟨0#8, 0#3, []⟩ (bitString s syms)) s.nsym rest) := by
    conv_lhs => rw [hstart]
    exact runSteps_packAt (s := acceptPack s) rfl he hcodes (cnt := 0#32) ((Nat.zero_add _).trans hn.symm)
  have hflush := step_packAt_done (s := acceptPack s) (src := rest) rfl he
    (putBits_accLow (w := ⟨0#8, 0#3, []⟩) rfl (bitString s syms))
  rw [runSteps_trans hsyms, packed_eq_putBits]
  exact runSteps_succ hflush 0

/-- Settles O52: `runSteps_acceptPack`, then `runSteps_drain` for the bytes and the completion step. -/
theorem packDeliversThePackedBitstream : Obligations.PackDeliversThePackedBitstream := by
  intro s syms rest hp hq he hr _ hs hn hcodes
  refine ⟨acceptPack s, next_whenIdle_idle acceptPack hp, ?_⟩
  have hdrain := runSteps_drain (s := packEnd (acceptPack s) (packed (bitString s syms)) rest) rfl he hr
  rw [Nat.add_assoc, runSteps_trans (runSteps_acceptPack hq he hs hn hcodes), hp, hq]
  exact hdrain

/-! ## No symbols (rules R207 and R227) -/

/-- An operation whose first step is `finish` without error completes in the next. -/
theorem runSteps_finish {s : State} {op : Op} (he : s.env.events = []) (hq : s.oq = [])
    (hstep : step s = .next (finish op .none s)) :
    runSteps 2 s = .next (complete op (finish op .none s)) := by
  rw [runSteps_succ hstep]
  exact runSteps_succ (step_drain_nil (s := finish op .none s) rfl he hq) 0

theorem step_acceptPack_zero {s : State} (he : s.env.events = []) (hn : s.nsym = 0#32) :
    step (acceptPack s) = .next (finish .pack .none (acceptPack s)) := by
  rw [step_pack (s := acceptPack s) rfl he (.inl hn.symm), engineStep_packDone (s := acceptPack s) rfl hn.symm]
  rfl

/-- With every symbol emitted UNPACK calls `finish` with no error (rule R223). -/
theorem engineStep_unpackDone {s : State} (hp : s.phase = .unpack) (hc : s.cnt = s.nsym) :
    engineStep s = .next (finish .unpack .none s) := by
  simp only [engineStep, hp, if_pos hc]

theorem step_unpackDone {s : State} (hp : s.phase = .unpack) (he : s.env.events = []) (hc : s.cnt = s.nsym) :
    step s = .next (finish .unpack .none s) :=
  (step_of_engineEnabled he (by simp [engineEnabled, inReady, hp, hc])).trans (engineStep_unpackDone hp hc)

/-- Settles O58: with CNT = NSYM = 0 the first engine step is `finish` without error, in PACK and in UNPACK. -/
theorem zeroSymbolsIsAnEmptyOperation : Obligations.ZeroSymbolsIsAnEmptyOperation := by
  intro s hp hq he hn i hi
  simp only [List.mem_cons, List.not_mem_nil, or_false] at hi
  rcases hi with rfl | rfl
  · exact ⟨_, _, next_whenIdle_idle acceptPack hp,
      runSteps_finish (s := acceptPack s) he hq (step_acceptPack_zero he hn), rfl, rfl, rfl, rfl, rfl, rfl⟩
  · exact ⟨_, _, next_whenIdle_idle acceptUnpack hp,
      runSteps_finish (s := acceptUnpack s) he hq (step_unpackDone rfl he hn.symm), rfl, rfl, rfl, rfl, rfl, rfl⟩

end Sys2Proof.Machine

/-!
# UNPACK (44_unpack.md)

One node word in UNPACK, what UNPACK and PACK do not depend on, the bits still to read, and a whole operation left to run
by itself.
-/

namespace Sys2Proof.Machine

/-! ## One node word (rules R221 to R226) -/

section
variable {s : State} {low high : NodeIdx}

theorem exec_nodeLeaf_unpack (hp : s.phase = .unpack) (hc : s.cnt ≠ s.nsym) (x : BitVec 10) (sym : Sym) :
    exec (.nodeLeaf x sym) s = .next (unpackLeaf sym s) := by
  simp only [exec, execNodeLeaf, hp, if_neg hc]

theorem exec_nodeInternal_unpack (hp : s.phase = .unpack) (hc : s.cnt ≠ s.nsym) :
    exec (.nodeInternal low high) s = .next (unpackInternal low high s) := by
  simp only [exec, execNodeInternal, hp, if_neg hc]

theorem unpackInternal_of_maxLen (hd : s.depth = Config.maxLen) :
    unpackInternal low high s = finish .unpack .treeDepth s := if_pos hd

theorem unpackInternal_of_held (hd : s.depth ≠ Config.maxLen) (hb : s.bitsLeft ≠ 0#4) :
    unpackInternal low high s = unpackBit low high s := by
  rw [unpackInternal, if_neg hd, if_neg hb]

theorem unpackInternal_of_byte {b : Byte} {rest : List Byte} (hd : s.depth ≠ Config.maxLen) (hb : s.bitsLeft = 0#4)
    (hs : s.env.source = b :: rest) : unpackInternal low high s = unpackBit low high (fetchByte b s) := by
  simp only [unpackInternal, if_neg hd, if_pos hb, inNext_byte.mpr ⟨rest, hs⟩]

/-- The first bit of a fetched byte is consumed, seven are left. -/
theorem unpackBit_fetchByte {b : Byte} {rest : List Byte} (hs : s.env.source = b :: rest) :
    unpackBit low high (fetchByte b s) = { s with
      cur := if b.getLsbD 7 then high else low
      shreg := b <<< 1, bitsLeft := 7#4, depth := s.depth + 1#8, env := { s.env with source := rest } } := by
  rw [fetchByte, takeByte_of_source hs, unpackBit, show 8#4 - 1#4 = 7#4 by decide]

theorem unpackInternal_of_eos (hd : s.depth ≠ Config.maxLen) (hb : s.bitsLeft = 0#4) (hi : inNext s = .eos) :
    unpackInternal low high s = finish .unpack .truncated s := by
  simp only [unpackInternal, if_neg hd, if_pos hb, hi]

theorem unpackInternal_of_nothing (hd : s.depth ≠ Config.maxLen) (hb : s.bitsLeft = 0#4)
    (hi : inNext s = .nothing) : unpackInternal low high s = s := by
  simp only [unpackInternal, if_neg hd, if_pos hb, hi]

end

/-- Settles O53: a Leaf in UNPACK is `unpackLeaf`. -/
theorem unpackEmitsALeaf : Obligations.UnpackEmitsALeaf := fun _ x sym hp hc => exec_nodeLeaf_unpack hp hc x sym

/-- Settles O54: below the depth limit an Internal word is `unpackBit`, after `fetchByte` when no bit is held. -/
theorem unpackConsumesOneBit : Obligations.UnpackConsumesOneBit := by
  intro s low high hp hc hd
  have hexec := exec_nodeInternal_unpack (low := low) (high := high) hp hc
  exact ⟨fun hb => hexec.trans (congrArg _ (unpackInternal_of_held hd hb)), fun b rest hb hs =>
    hexec.trans (congrArg _ ((unpackInternal_of_byte hd hb hs).trans (unpackBit_fetchByte hs)))⟩

/-- Settles O55: the branch of `unpackInternal` that each ending names, the depth tested first. -/
theorem unpackStopsOnABadWalk : Obligations.UnpackStopsOnABadWalk := by
  intro s low high hp hc
  have hexec := exec_nodeInternal_unpack (low := low) (high := high) hp hc
  exact ⟨fun hd => hexec.trans (congrArg _ (unpackInternal_of_maxLen hd)),
    fun hd hb hs he => hexec.trans (congrArg _ (unpackInternal_of_eos hd hb (inNext_eos.mpr ⟨hs, he⟩))),
    fun hd hb hs he => hexec.trans (congrArg _ (unpackInternal_of_nothing hd hb (inNext_nothing.mpr ⟨hs, he⟩)))⟩

/-! ## What UNPACK and PACK do not depend on -/

/-- `s` with another code table. -/
def withTable (lut : CodeTable) (v : Bool) (s : State) : State := { s with lut := lut, lutValid := v }

/-- `s` with another tree. -/
def withTree (tm : Memory) (root : NodeIdx) (s : State) : State := { s with tm := tm, root := root }

theorem unpackInternal_withTable (lut : CodeTable) (v : Bool) (low high : NodeIdx) (s : State) :
    unpackInternal low high (withTable lut v s) = withTable lut v (unpackInternal low high s) := by
  rcases unpackInternal_cases low high s with
    ⟨hd, e⟩ | ⟨hd, ⟨hb, e⟩ | ⟨hb, hi, e⟩ | ⟨hb, hi, e⟩ | ⟨b, hb, hi, e⟩⟩ <;> rw [e]
  · exact unpackInternal_of_maxLen hd
  · exact unpackInternal_of_held hd hb
  · exact unpackInternal_of_nothing hd hb hi
  · exact unpackInternal_of_eos hd hb hi
  · obtain ⟨rest, hs⟩ := inNext_byte.mp hi
    exact unpackInternal_of_byte hd hb hs

/-- A turn of the engine in UNPACK commutes with an exchange of the table. -/
theorem engineStep_withTable {s t : State} (lut : CodeTable) (v : Bool) (hp : s.phase = .unpack)
    (h : engineStep s = .next t) : engineStep (withTable lut v s) = .next (withTable lut v t) := by
  by_cases hc : s.cnt = s.nsym
  · cases (engineStep_unpackDone hp hc).symm.trans h
    exact engineStep_unpackDone (s := withTable lut v s) hp hc
  · cases hl : isInternal (memRead s s.cur) with
    | false =>
      cases (engineStep_unpackLeaf hp hc hl).symm.trans h
      exact engineStep_unpackLeaf (s := withTable lut v s) hp hc hl
    | true =>
      cases (engineStep_unpackInternal hp hc hl).symm.trans h
      exact (engineStep_unpackInternal (s := withTable lut v s) hp hc hl).trans
        (congrArg _ (unpackInternal_withTable lut v _ _ s))

theorem flush_withTree (tm : Memory) (root : NodeIdx) (s : State) :
    flush (withTree tm root s) = withTree tm root (flush s) := by
  rcases flush_cases s with ⟨hf, e⟩ | ⟨hf, e⟩ <;> rw [e]
  · exact if_pos hf
  · exact if_neg hf

section
variable {s : State} (hn : packNoLut s = false) (hc : s.cnt ≠ s.nsym)
include hn hc

theorem packPass_waits (hi : inNext s = .nothing) : packPass s = s := by
  simp [packPass, hn, hc, hi]

/-- Past the test for NoLut the end of the stream raises Underrun, whatever LUT_VALID. -/
theorem packPass_underrun (hi : inNext s = .eos) : packPass s = finish .pack .underrun s := by
  simp [packPass, hn, hc, hi]

/-- Past the test for NoLut a byte without a code raises NoCode, whatever LUT_VALID. -/
theorem packPass_noCode {b : Byte} (hi : inNext s = .byte b) (hv : (lookup s b).v = false) :
    packPass s = finish .pack .noCode (takeByte s) := by
  simp [packPass, hn, hc, hi, hv]

end

theorem packPass_withTree (tm : Memory) (root : NodeIdx) (s : State) :
    packPass (withTree tm root s) = withTree tm root (packPass s) := by
  rcases packPass_cases s with
    ⟨hn, e⟩ | ⟨-, hc, e⟩ | ⟨hn, hc, ⟨hi, e⟩ | ⟨hi, e⟩ | ⟨b, hi, hv, e⟩ | ⟨b, hi, hv, e⟩⟩ <;> rw [e]
  · exact packPass_of_noLut hn
  · rw [packPass_of_done (s := withTree tm root s) hc, flush_withTree]; rfl
  · exact packPass_waits hn hc hi
  · exact packPass_underrun hn hc hi
  · exact packPass_of_code hc hi hv
  · exact packPass_noCode hn hc hi hv

/-- A turn of the engine in PACK commutes with an exchange of the tree. -/
theorem engineStep_withTree {s t : State} (tm : Memory) (root : NodeIdx) (hp : s.phase = .pack)
    (h : engineStep s = .next t) : engineStep (withTree tm root s) = .next (withTree tm root t) := by
  cases (engineStep_pack hp).symm.trans h
  exact (engineStep_pack (s := withTree tm root s) hp).trans (congrArg _ (packPass_withTree tm root s))

/-- Settles O57: the engine's turn commutes with the exchange; the exchange for what stands there says that it stays. -/
theorem packIgnoresTheTreeAndUnpackTheTable : Obligations.PackIgnoresTheTreeAndUnpackTheTable := by
  refine ⟨fun s t lut v hp h => ?_, fun s t tm root hp h => ?_⟩
  · have hkept : t = withTable s.lut s.lutValid t :=
      Host.Outcome.next.inj (h.symm.trans (engineStep_withTable s.lut s.lutValid hp h))
    exact ⟨(congrArg State.lut hkept :), (congrArg State.lutValid hkept :), engineStep_withTable lut v hp h⟩
  · have hkept : t = withTree s.tm s.root t :=
      Host.Outcome.next.inj (h.symm.trans (engineStep_withTree s.tm s.root hp h))
    exact ⟨(congrArg State.tm hkept :), (congrArg State.root hkept :), engineStep_withTree tm root hp h⟩

/-! ## The bits still to read (rule R222) -/

/-- The unpacker's input: SHREG, BITS_LEFT (10_state.md rule R53) and the bytes the source still offers. -/
structure BitReader where
  shreg : Byte
  bitsLeft : BitVec 4
  src : List Byte

/-- The bits still to read: those held in SHREG, then those of the bytes not yet fetched. -/
def unreadBits (r : BitReader) : List Bool := (bitsOfByte r.shreg).take r.bitsLeft.toNat ++ r.src.flatMap bitsOfByte

/-- Between two steps of UNPACK: less than a byte is held, and `bits` are still to read. -/
structure BitReader.Offers (r : BitReader) (bits : List Bool) : Prop where
  lt_byte : r.bitsLeft.toNat < 8
  unread : unreadBits r = bits

/-- A shift of the byte brings its next bit to the top. -/
theorem take_bitsOfByte_succ (a : Byte) {n : Nat} (hn : n < 8) :
    (bitsOfByte a).take (n + 1) = a.getLsbD 7 :: (bitsOfByte (a <<< 1)).take n := by
  rw [take_bitsOfByte a hn, take_bitsOfByte _ hn.le, List.range_succ_eq_map, List.map_cons, List.map_map]
  refine congrArg _ (List.map_congr_left fun k hk => ?_)
  have hk := List.mem_range.mp hk
  simp [show 7 - k < 8 by omega, show 7 - k ≠ 0 by omega, Nat.sub_sub,
    BitVec.getLsbD_eq_getElem (show 6 - k < 8 by omega)]

/-- Of a byte or less, the bit read is the top one of SHREG. -/
theorem unreadBits_shift {r : BitReader} (hpos : r.bitsLeft ≠ 0#4) (hle : r.bitsLeft.toNat ≤ 8) :
    unreadBits r = r.shreg.getLsbD 7 :: unreadBits ⟨r.shreg <<< 1, r.bitsLeft - 1#4, r.src⟩ := by
  have hn : r.bitsLeft.toNat = (r.bitsLeft - 1#4).toNat + 1 := by bv_omega
  rw [unreadBits, hn, take_bitsOfByte_succ _ (by omega)]
  rfl

theorem unreadBits_of_empty {r : BitReader} (hb : r.bitsLeft = 0#4) : unreadBits r = r.src.flatMap bitsOfByte := by
  rw [unreadBits, hb]
  rfl

/-- Of a byte just fetched, the bit read is its top one, and seven are held. -/
theorem flatMap_bitsOfByte_cons (a : Byte) (src : List Byte) :
    (a :: src).flatMap bitsOfByte = a.getLsbD 7 :: unreadBits ⟨a <<< 1, 7#4, src⟩ :=
  congrArg (· ++ src.flatMap bitsOfByte) (take_bitsOfByte_succ a (n := 7) (by decide))

/-- While a bit is to be read, it is held, or the source offers the byte it is in. -/
theorem BitReader.Offers.next {r : BitReader} {b : Bool} {bits : List Bool} (h : r.Offers (b :: bits)) :
    (r.bitsLeft ≠ 0#4 ∧ r.shreg.getLsbD 7 = b ∧
      BitReader.Offers ⟨r.shreg <<< 1, r.bitsLeft - 1#4, r.src⟩ bits) ∨
    (r.bitsLeft = 0#4 ∧ ∃ a src, r.src = a :: src ∧ a.getLsbD 7 = b ∧ BitReader.Offers ⟨a <<< 1, 7#4, src⟩ bits) := by
  obtain ⟨hlt, hunread⟩ := h
  by_cases hb : r.bitsLeft = 0#4
  · rw [unreadBits_of_empty hb] at hunread
    obtain ⟨a, src, hs⟩ : ∃ a src, r.src = a :: src :=
      List.exists_cons_of_ne_nil fun hs => by rw [hs] at hunread; cases hunread
    rw [hs, flatMap_bitsOfByte_cons] at hunread
    obtain ⟨hbit, hbits⟩ := List.cons.inj hunread
    exact .inr ⟨hb, a, src, hs, hbit, Nat.lt_succ_self 7, hbits⟩
  · rw [unreadBits_shift hb hlt.le] at hunread
    obtain ⟨hbit, hbits⟩ := List.cons.inj hunread
    exact .inl ⟨hb, hbit, by bv_omega, hbits⟩

theorem length_flatMap_bitsOfByte (bytes : List Byte) : (bytes.flatMap bitsOfByte).length = 8 * bytes.length := by
  simp [List.length_flatMap, length_bitsOfByte, Nat.mul_comm]

/-- Whole bytes are packed back from their bits. -/
theorem packed_flatMap_bitsOfByte (bytes : List Byte) : packed (bytes.flatMap bitsOfByte) = bytes := by
  simpa [packed] using packed_flatMap_bitsOfByte_append bytes []

/-- Less than a byte before `rest`: no byte of `rest` has been fetched, and all before it have. -/
theorem BitReader.Offers.src_eq {r : BitReader} {pad : List Bool} {rest : List Byte}
    (h : r.Offers (pad ++ rest.flatMap bitsOfByte)) (hpad : pad.length < 8) : r.src = rest := by
  obtain ⟨hlt, hunread⟩ := h
  have hheld : ((bitsOfByte r.shreg).take r.bitsLeft.toNat).length = r.bitsLeft.toNat := by
    rw [List.length_take, length_bitsOfByte, Nat.min_eq_left hlt.le]
  have hlen := congrArg List.length hunread
  simp only [unreadBits, List.length_append, hheld, length_flatMap_bitsOfByte] at hlen
  obtain ⟨-, hbytes⟩ := List.append_inj hunread (by rw [hheld]; omega)
  rw [← packed_flatMap_bitsOfByte r.src, hbytes, packed_flatMap_bitsOfByte]

/-- The bits of the packed bitstream are the bit string and less than a byte of padding (30_encoding.md rule R112). -/
theorem bits_packed (bits : List Bool) :
    ∃ pad : List Bool, pad.length < 8 ∧ (packed bits).flatMap bitsOfByte = bits ++ pad := by
  have hbits : writtenBits (putBits ⟨0#8, 0#3, []⟩ bits) = bits := writtenBits_putBits _ bits
  generalize hw : putBits ⟨0#8, 0#3, []⟩ bits = w at hbits
  rw [packed_eq_putBits, hw, List.flatMap_append]
  by_cases hf : w.fill = 0#3
  · refine ⟨[], by decide, ?_⟩
    rw [← hbits, writtenBits, partialByte, if_pos hf, hf]
    simp
  · have hpos : w.fill.toNat ≠ 0 := fun e => hf (BitVec.eq_of_toNat_eq e)
    refine ⟨(bitsOfByte w.acc).drop w.fill.toNat, by rw [List.length_drop, length_bitsOfByte]; omega, ?_⟩
    rw [partialByte, if_neg hf]
    conv_rhs => rw [← hbits]
    rw [writtenBits, List.append_assoc, List.take_append_drop, List.flatMap_singleton]

/-! ## UNPACK left to run (rules R224 and R229) -/

/-- `s`, a state in UNPACK, with `r` as its input, at node `cur` of depth `depth`. -/
def unpackAt (s : State) (r : BitReader) (cur : NodeIdx) (depth : BitVec 8) : State :=
  { s with cur := cur, depth := depth, shreg := r.shreg, bitsLeft := r.bitsLeft, env := { s.env with source := r.src } }

/-- `s`, a state in UNPACK, with `syms` appended to OQ and `cnt` symbols counted. -/
def emitted (s : State) (syms : List Sym) (cnt : Word) : State := { s with oq := s.oq ++ syms, cnt := cnt }

theorem emitted_nil {s : State} {cnt : Word} (h : s.cnt = cnt) : emitted s [] cnt = s := by
  rw [emitted, List.append_nil, ← h]

theorem emitted_emitted (s : State) (x : Sym) (syms : List Sym) (c cnt : Word) :
    emitted (emitted s [x] c) syms cnt = emitted s (x :: syms) cnt := by
  simp [emitted]

section
variable {s : State} (hp : s.phase = .unpack) (he : s.env.events = [])
include hp he

/-- In UNPACK the engine moves, but for an Internal word with no bit held and a silent source. -/
theorem step_unpack (hi : isInternal (memRead s s.cur) = false ∨ s.bitsLeft ≠ 0#4 ∨ inNext s ≠ .nothing) :
    step s = engineStep s :=
  step_of_engineEnabled he (by simp only [engineEnabled, inReady, hp]; rcases hi with hi | hi | hi <;> simp [hi])

theorem step_unpackAt_leaf {r : BitReader} {cur : NodeIdx} {depth : BitVec 8} (hc : s.cnt ≠ s.nsym)
    (hl : isInternal (memRead s cur) = false) :
    step (unpackAt s r cur depth) =
      .next (unpackAt (emitted s [symOf (memRead s cur)] (s.cnt + 1#32)) r s.root 0#8) :=
  (step_unpack (s := unpackAt s r cur depth) hp he (.inl hl)).trans
    (engineStep_unpackLeaf (s := unpackAt s r cur depth) hp hc hl)

/-- At an Internal word the next bit is read and selects the child. -/
theorem step_unpackAt_internal {r : BitReader} {cur : NodeIdx} {depth : BitVec 8} {b : Bool} {bits : List Bool}
    (hc : s.cnt ≠ s.nsym) (hi : isInternal (memRead s cur) = true) (hd : depth ≠ Config.maxLen)
    (hr : r.Offers (b :: bits)) :
    ∃ r' : BitReader, r'.Offers bits ∧
      step (unpackAt s r cur depth) = .next (unpackAt s r' (childOf b (memRead s cur)) (depth + 1#8)) := by
  have hengine := engineStep_unpackInternal (s := unpackAt s r cur depth) hp hc hi
  rcases hr.next with ⟨hb, hbit, hr'⟩ | ⟨hb, a, src, hs, hbit, hr'⟩ <;> refine ⟨_, hr', ?_⟩ <;> rw [← hbit]
  · rw [step_unpack (s := unpackAt s r cur depth) hp he (.inr (.inl hb)), hengine, unpackInternal_of_held hd hb]
    rfl
  · have hin : inNext (unpackAt s r cur depth) ≠ .nothing := by
      rw [inNext_byte.mpr ⟨src, hs⟩]; nofun
    rw [step_unpack (s := unpackAt s r cur depth) hp he (.inr (.inr hin)), hengine, unpackInternal_of_byte hd hb hs,
      unpackBit_fetchByte hs]
    rfl

/-- UNPACK follows the bits to be read as far as `p` leads, within the 255 edges of a path. -/
theorem unpackAt_walk (hc : s.cnt ≠ s.nsym) {p tail : List Bool} {r : BitReader} {cur i : NodeIdx}
    {depth : BitVec 8} (hw : walk (memRead s) cur p = some i) (hd : depth.toNat + p.length ≤ 255)
    (hr : r.Offers (p ++ tail)) :
    ∃ r' depth', r'.Offers tail ∧ Reaches (unpackAt s r cur depth) (unpackAt s r' i depth') := by
  induction p generalizing r cur depth with
  | nil => cases hw; exact ⟨r, depth, hr, 0, rfl⟩
  | cons b p ih =>
    rw [List.length_cons] at hd
    have hmax : depth ≠ Config.maxLen := fun e => by simp [e, Config.maxLen] at hd
    cases hi : isInternal (memRead s cur) with
    | false => simp [walk, hi] at hw
    | true =>
      obtain ⟨r₁, hr₁, hstep⟩ := step_unpackAt_internal hp he hc hi hmax hr
      rw [walk, if_pos hi] at hw
      obtain ⟨r', depth', hr', hreach⟩ := ih hw (by rw [toNat_succ_of_ne_maxLen hmax]; omega) hr₁
      exact ⟨r', depth', hr', (Reaches.of_step hstep).trans hreach⟩

/-- From ROOT, UNPACK reads the path of one symbol and emits it. -/
theorem unpackAt_symbol (hc : s.cnt ≠ s.nsym) {p tail : List Bool} {sym : Sym} {r : BitReader}
    (hlead : leadsTo (memRead s) s.root p sym) (hlen : p.length ≤ 255) (hr : r.Offers (p ++ tail)) :
    ∃ r' : BitReader, r'.Offers tail ∧ Reaches (unpackAt s r s.root 0#8)
      (unpackAt (emitted s [sym] (s.cnt + 1#32)) r' s.root 0#8) := by
  obtain ⟨i, hw, hl, rfl⟩ := hlead
  obtain ⟨r', depth', hr', hreach⟩ := unpackAt_walk hp he hc (depth := 0#8) hw (by simpa using hlen) hr
  exact ⟨r', hr', hreach.trans (.of_step (step_unpackAt_leaf hp he hc hl))⟩

/-- UNPACK emits every symbol missing whose path is read in turn. -/
theorem unpackAt_symbols {syms : List Sym} {path : Sym → List Bool} {tail : List Bool} {r : BitReader}
    (hpath : ∀ x ∈ syms, leadsTo (memRead s) s.root (path x) x ∧ (path x).length ≤ 255)
    (hcnt : s.cnt.toNat + syms.length = s.nsym.toNat) (hr : r.Offers (syms.flatMap path ++ tail)) :
    ∃ r' : BitReader, r'.Offers tail ∧ Reaches (unpackAt s r s.root 0#8)
      (unpackAt (emitted s syms s.nsym) r' s.root 0#8) := by
  induction syms generalizing s r with
  | nil =>
    rw [emitted_nil (BitVec.eq_of_toNat_eq hcnt)]
    exact ⟨r, hr, 0, rfl⟩
  | cons x syms ih =>
    obtain ⟨⟨hlead, hlen⟩, hpath⟩ := List.forall_mem_cons.mp hpath
    rw [List.length_cons] at hcnt
    rw [List.flatMap_cons, List.append_assoc] at hr
    have hlt := s.nsym.isLt
    have hc : s.cnt ≠ s.nsym := fun e => by rw [e] at hcnt; omega
    have hsucc : (s.cnt + 1#32).toNat + syms.length = s.nsym.toNat := by
      rw [BitVec.toNat_add, BitVec.toNat_ofNat]; omega
    obtain ⟨r₁, hr₁, hone⟩ := unpackAt_symbol hp he hc hlead hlen hr
    obtain ⟨r', hr', hall⟩ := ih (s := emitted s [x] (s.cnt + 1#32)) hp he hpath hsucc hr₁
    rw [emitted_emitted] at hall
    exact ⟨r', hr', hone.trans hall⟩

end

/-- An UNPACK accepted in `s` and left to run completes without error, with `syms` delivered and `rest` left at the
source. -/
def UnpackDelivers (s : State) (syms : List Sym) (rest : List Byte) : Prop :=
  ∃ k t₀ t, exec .unpack s = .next t₀ ∧ runSteps k t₀ = .next t ∧ t.phase = .idle ∧ t.done = true ∧
    t.err = .none ∧ t.cnt = s.nsym ∧
    t.env = { s.env with source := rest, delivered := s.env.delivered ++ syms }

/-- UNPACK delivers NSYM symbols whose paths, and less than a byte of padding, stand before `rest` at the source. -/
theorem unpackDelivers_of_paths {s : State} {syms : List Sym} {path : Sym → List Bool} {pad : List Bool}
    {rest : List Byte} (hp : s.phase = .idle) (hq : s.oq = []) (he : s.env.events = [])
    (hready : s.env.sinkReady = true) (hn : s.nsym.toNat = syms.length)
    (hpath : ∀ x ∈ syms, leadsTo (memRead s) s.root (path x) x ∧ (path x).length ≤ 255) (hpad : pad.length < 8)
    (hs : s.env.source.flatMap bitsOfByte = syms.flatMap path ++ (pad ++ rest.flatMap bitsOfByte)) :
    UnpackDelivers s syms rest := by
  have hr : BitReader.Offers ⟨0#8, 0#4, s.env.source⟩ (syms.flatMap path ++ (pad ++ rest.flatMap bitsOfByte)) :=
    ⟨Nat.zero_lt_succ 7, hs⟩
  obtain ⟨r, hr', hsyms⟩ := unpackAt_symbols (s := acceptUnpack s) rfl he hpath ((Nat.zero_add _).trans hn.symm) hr
  have hdone := step_unpackDone (s := unpackAt (emitted (acceptUnpack s) syms s.nsym) r s.root 0#8) rfl he rfl
  obtain ⟨k, hk⟩ := (hsyms.trans (.of_step hdone)).trans ⟨_, runSteps_drain rfl he hready⟩
  refine ⟨k, _, _, next_whenIdle_idle acceptUnpack hp, hk, rfl, rfl, rfl, rfl, ?_⟩
  change { s.env with source := r.src, delivered := s.env.delivered ++ (s.oq ++ syms) } = _
  rw [hr'.src_eq hpad, hq, List.nil_append]

/-- Settles O59: on a degenerate tree every path is empty, so all of the source stands behind the paths. -/
theorem degenerateTreeReadsNothing : Obligations.DegenerateTreeReadsNothing := by
  intro s hp hq he hready hl
  refine unpackDelivers_of_paths (path := fun _ => []) (pad := []) (rest := s.env.source) hp hq he hready
    List.length_replicate.symm (fun x hx => ?_) (by decide) (by simp)
  exact ⟨⟨s.root, rfl, hl, (List.eq_of_mem_replicate hx).symm⟩, by simp⟩

/-- Settles O60: a code is the path to its symbol's Leaf, and the packed bitstream is the paths and its padding. -/
theorem unpackInvertsPack : Obligations.UnpackInvertsPack := by
  intro s syms rest hp hq he hready hv htab hn hcodes hs
  have htable := htab.valid hv
  obtain ⟨pad, hpad, hbits⟩ := bits_packed (bitString s syms)
  refine unpackDelivers_of_paths (path := symBits s) hp hq he hready hn (fun x hx => ?_) hpad ?_
  · have hlead := leadsTo_symBits htable hv (hcodes x hx)
    have ⟨i, hi, _⟩ := hlead
    exact ⟨hlead, htable.bounded _ i hi⟩
  · rw [hs, List.flatMap_append, hbits, List.append_assoc]
    rfl

end Sys2Proof.Machine

/-!
# A busy block: stuck, or on its way (60_exceptions.md)

The two situations of rule R251 in which the engine has no enabled step, and the end PACK and UNPACK come to outside them.
-/

namespace Sys2Proof.Machine

/-! ## Where the engine is stuck (rule R251) -/

section
variable {s : State}

theorem inReady_pack_iff (hp : s.phase = .pack) : inReady s = true ↔ packNoLut s = false ∧ s.cnt ≠ s.nsym := by
  simp [inReady, hp]

theorem inReady_unpack_iff (hp : s.phase = .unpack) : inReady s = true ↔
    s.cnt ≠ s.nsym ∧ isInternal (memRead s s.cur) = true ∧ s.depth ≠ Config.maxLen ∧ s.bitsLeft = 0#4 := by
  simp [inReady, hp, and_assoc]

theorem phase_of_inReady (h : inReady s = true) : s.phase = .pack ∨ s.phase = .unpack := by
  unfold inReady at h
  cases hp : s.phase with
  | pack => exact .inl rfl
  | unpack => exact .inr rfl
  | idle | gen | drain op => simp [hp] at h

/-- PACK and UNPACK wait only inside `InNext()`, for a source that shows nothing. -/
theorem engineEnabled_stream_iff (hp : s.phase = .pack ∨ s.phase = .unpack) :
    engineEnabled s = true ↔ (inReady s = true → inNext s ≠ .nothing) := by
  rcases hp with hp | hp <;> cases hr : inReady s <;> simp [engineEnabled, hp, hr]

theorem engineEnabled_drain_iff {op : Op} (hp : s.phase = .drain op) : engineEnabled s = true ↔ s.oq = [] := by
  simp [engineEnabled, hp]

theorem engineEnabled_gen (hp : s.phase = .gen) : engineEnabled s = true := by
  simp [engineEnabled, hp]

theorem engineEnabled_idle (hp : s.phase = .idle) : engineEnabled s = false := by
  simp [engineEnabled, hp]

theorem engineEnabled_eq_false_iff (hbusy : s.phase ≠ .idle) : engineEnabled s = false ↔
    (inReady s = true ∧ s.env.source = [] ∧ s.env.eos = false) ∨ (∃ op, s.phase = .drain op ∧ s.oq ≠ []) := by
  rw [← inNext_nothing, ← Bool.not_eq_true]
  have stream (hp : s.phase = .pack ∨ s.phase = .unpack) : ¬ engineEnabled s = true ↔
      (inReady s = true ∧ inNext s = .nothing) ∨ (∃ op, s.phase = .drain op ∧ s.oq ≠ []) := by
    have hdrain : ¬ ∃ op, s.phase = .drain op ∧ s.oq ≠ [] := by rcases hp with hp | hp <;> simp [hp]
    rw [engineEnabled_stream_iff hp, or_iff_left hdrain, Classical.not_imp, not_not]
  cases hp : s.phase with
  | idle => exact absurd hp hbusy
  | gen => simp [engineEnabled_gen hp, inReady, hp]
  | pack => exact hp ▸ stream (.inl hp)
  | unpack => exact hp ▸ stream (.inr hp)
  | drain op => simp [engineEnabled_drain_iff hp, inReady, hp]

/-- Inside `InNext()` with nothing shown, the engine's turn changes nothing (log 18). -/
theorem engineStep_inReady_waits (hr : inReady s = true) (hi : inNext s = .nothing) : engineStep s = .next s := by
  rcases phase_of_inReady hr with hp | hp
  · obtain ⟨hn, hc⟩ := (inReady_pack_iff hp).mp hr
    rw [engineStep_pack hp, packPass_waits hn hc hi]
  · obtain ⟨hc, hl, hd, hb⟩ := (inReady_unpack_iff hp).mp hr
    rw [engineStep_unpackInternal hp hc hl, unpackInternal_of_nothing hd hb hi]

theorem engineStep_of_disabled (hbusy : s.phase ≠ .idle) (h : engineEnabled s = false) : engineStep s = .next s := by
  rcases (engineEnabled_eq_false_iff hbusy).mp h with ⟨hr, hnothing⟩ | ⟨op, hp, hq⟩
  · exact engineStep_inReady_waits hr (inNext_nothing.mpr hnothing)
  · exact engineStep_drain_waits hp hq

end

/-! ## An enabled turn of PACK or UNPACK comes nearer to the end -/

/-- What PACK or UNPACK has still to do: the symbols missing (from a CNT above NSYM, around 2^32), and for each the
edges left to the depth limit (44_unpack.md rule R226). -/
def toDo (s : State) : Nat := (s.nsym - s.cnt).toNat * 256 + (255 - s.depth.toNat)

/-- `t` is a turn nearer than `s` to the end of the operation running: it drains, or runs on with less to do.
Of the world around the block only the bytes at the source can differ. -/
structure Nearer (s t : State) : Prop where
  phase : (∃ op, t.phase = .drain op) ∨ (t.phase = s.phase ∧ toDo t < toDo s)
  env : ∃ src, t.env = { s.env with source := src }

section
variable {s t : State}

theorem Nearer.ne (h : Nearer s t) (hp : s.phase = .pack ∨ s.phase = .unpack) : t ≠ s := by
  rintro rfl
  rcases h.phase with ⟨op, hop⟩ | ⟨-, hlt⟩
  · rcases hp with hp | hp <;> cases hp.symm.trans hop
  · exact lt_irrefl _ hlt

theorem nearer_finish (op : Op) (e : ErrCode) (h : ∃ src, t.env = { s.env with source := src }) :
    Nearer s (finish op e t) := ⟨.inl ⟨op, rfl⟩, h⟩

/-- A symbol more leaves less to do, whatever DEPTH becomes. -/
theorem toDo_lt_of_symbol (hc : s.cnt ≠ s.nsym) (hcnt : t.cnt = s.cnt + 1#32) (hn : t.nsym = s.nsym) :
    toDo t < toDo s := by
  have hmissing : (s.nsym - (s.cnt + 1#32)).toNat < (s.nsym - s.cnt).toNat := by bv_omega
  unfold toDo
  rw [hcnt, hn]
  omega

/-- An edge more, below the depth limit, leaves less to do. -/
theorem toDo_lt_of_edge (hd : s.depth ≠ Config.maxLen) (hdepth : t.depth = s.depth + 1#8) (hcnt : t.cnt = s.cnt)
    (hn : t.nsym = s.nsym) : toDo t < toDo s := by
  have hsucc := toNat_succ_of_ne_maxLen hd
  have hbound := (s.depth + 1#8).isLt
  unfold toDo
  rw [hcnt, hn, hdepth]
  omega

theorem packPass_nearer (hin : inReady s = true → inNext s ≠ .nothing) (hp : s.phase = .pack) :
    Nearer s (packPass s) := by
  rcases packPass_cases s with
    ⟨-, e⟩ | ⟨-, -, e⟩ | ⟨hn, hc, ⟨hi, -⟩ | ⟨-, e⟩ | ⟨b, -, -, e⟩ | ⟨b, -, -, e⟩⟩
  · exact e ▸ nearer_finish _ _ ⟨_, rfl⟩
  · obtain ⟨q, a, f, hflush⟩ := flush_eq s
    exact e ▸ nearer_finish _ _ ⟨_, by rw [hflush]⟩
  · exact absurd hi (hin ((inReady_pack_iff hp).mpr ⟨hn, hc⟩))
  · exact e ▸ nearer_finish _ _ ⟨_, rfl⟩
  · exact e ▸ ⟨.inr ⟨rfl, toDo_lt_of_symbol hc rfl rfl⟩, _, rfl⟩
  · exact e ▸ nearer_finish _ _ ⟨_, rfl⟩

theorem unpackInternal_nearer (hin : inReady s = true → inNext s ≠ .nothing) (hp : s.phase = .unpack)
    (hc : s.cnt ≠ s.nsym) (hl : isInternal (memRead s s.cur) = true) (low high : NodeIdx) :
    Nearer s (unpackInternal low high s) := by
  rcases unpackInternal_cases low high s with
    ⟨-, e⟩ | ⟨hd, ⟨-, e⟩ | ⟨hb, hi, -⟩ | ⟨-, -, e⟩ | ⟨b, -, -, e⟩⟩
  · exact e ▸ nearer_finish _ _ ⟨_, rfl⟩
  · exact e ▸ ⟨.inr ⟨rfl, toDo_lt_of_edge hd rfl rfl rfl⟩, _, rfl⟩
  · exact absurd hi (hin ((inReady_unpack_iff hp).mpr ⟨hc, hl, hd, hb⟩))
  · exact e ▸ nearer_finish _ _ ⟨_, rfl⟩
  · exact e ▸ ⟨.inr ⟨rfl, toDo_lt_of_edge hd rfl rfl rfl⟩, _, rfl⟩

/-- SAID ONCE: an enabled turn of PACK or UNPACK ends the operation or leaves less of it to do. -/
theorem engineStep_nearer (hp : s.phase = .pack ∨ s.phase = .unpack) (hen : engineEnabled s = true) :
    ∃ t, engineStep s = .next t ∧ Nearer s t := by
  have hin := (engineEnabled_stream_iff hp).mp hen
  rcases hp with hp | hp
  · exact ⟨_, engineStep_pack hp, packPass_nearer hin hp⟩
  · by_cases hc : s.cnt = s.nsym
    · exact ⟨_, engineStep_unpackDone hp hc, nearer_finish _ _ ⟨_, rfl⟩⟩
    · cases hl : isInternal (memRead s s.cur) with
      | true => exact ⟨_, engineStep_unpackInternal hp hc hl, unpackInternal_nearer hin hp hc hl _ _⟩
      | false => exact ⟨_, engineStep_unpackLeaf hp hc hl, .inr ⟨rfl, toDo_lt_of_symbol hc rfl rfl⟩, _, rfl⟩

end

/-! ## An enabled turn changes the state -/

section
variable {s : State} {it : GenItem} {rest : List GenItem}

theorem genLeaf_gen_ne (hg : s.gen = .visiting (it :: rest)) (sym : Sym) :
    (genLeaf sym it rest s).gen ≠ s.gen := by
  by_cases h : cellGet s.lut sym.toNat = none
  · simp [genLeaf_of_unlisted h, hg]
  · simp [genLeaf_of_listed h, hg]

theorem genInternal_gen_ne (hg : s.gen = .visiting (it :: rest)) (low high : NodeIdx) :
    (genInternal low high it rest s).gen ≠ s.gen := by
  by_cases h : it.len = Config.maxLen
  · simp [genInternal_of_eq_maxLen h, hg]
  · rw [genInternal_of_ne_maxLen h, hg]
    intro he
    have hlen := congrArg List.length (GenWork.visiting.inj he)
    simp at hlen

/-- Every turn of GEN changes its working storage (10_state.md rule R54). -/
theorem engineStep_gen_changes (hp : s.phase = .gen) : ∃ t, engineStep s = .next t ∧ t.gen ≠ s.gen := by
  match hg : s.gen with
  | .fresh => exact ⟨genStart s, by simp only [engineStep, hp, hg], nofun⟩
  | .visiting [] => exact ⟨_, engineStep_genDone hp hg, nofun⟩
  | .visiting (it :: rest) =>
    rw [← hg]
    cases hl : isInternal (memRead s it.node) with
    | true => exact ⟨_, engineStep_genInternal hp hg hl, genInternal_gen_ne hg _ _⟩
    | false => exact ⟨_, engineStep_genLeaf hp hg hl, genLeaf_gen_ne hg _⟩

theorem engineStep_of_enabled (hen : engineEnabled s = true) : ∃ t, engineStep s = .next t ∧ t ≠ s := by
  have stream (hp : s.phase = .pack ∨ s.phase = .unpack) : ∃ t, engineStep s = .next t ∧ t ≠ s := by
    obtain ⟨t, ht, hnear⟩ := engineStep_nearer hp hen
    exact ⟨t, ht, hnear.ne hp⟩
  cases hp : s.phase with
  | idle => rw [engineEnabled_idle hp] at hen; cases hen
  | gen =>
    obtain ⟨t, ht, hgen⟩ := engineStep_gen_changes hp
    exact ⟨t, ht, fun e => hgen (congrArg State.gen e)⟩
  | pack => exact stream (.inl hp)
  | unpack => exact stream (.inr hp)
  | drain op =>
    refine ⟨_, engineStep_drain_empty hp ((engineEnabled_drain_iff hp).mp hen), fun e => ?_⟩
    cases (congrArg State.phase e : Phase.idle = s.phase).trans hp

end

/-! ## PACK and UNPACK end -/

/-- With the mark after the offered bytes and a ready sink, PACK and UNPACK come to DRAIN in finitely many turns, and
from there to IDLE with DONE = 1. -/
theorem reaches_done {s : State} (hp : s.phase = .pack ∨ s.phase = .unpack) (he : s.env.events = [])
    (heos : s.env.eos = true) (hready : s.env.sinkReady = true) :
    ∃ t, Reaches s t ∧ t.phase = .idle ∧ t.done = true := by
  have hen : engineEnabled s = true := (engineEnabled_stream_iff hp).mpr fun _ hi => by
    obtain ⟨-, hfalse⟩ := inNext_nothing.mp hi
    rw [heos] at hfalse; cases hfalse
  obtain ⟨t, hturn, hphase, src, henv⟩ := engineStep_nearer hp hen
  have hstep : Reaches s t := .of_step ((step_of_engineEnabled he hen).trans hturn)
  have he' : t.env.events = [] := by rw [henv]; exact he
  have hready' : t.env.sinkReady = true := by rw [henv]; exact hready
  rcases hphase with ⟨op, hdrain⟩ | ⟨hsame, hlt⟩
  · exact ⟨_, hstep.trans ⟨_, runSteps_drain hdrain he' hready'⟩, rfl, rfl⟩
  · have heos' : t.env.eos = true := by rw [henv]; exact heos
    obtain ⟨u, hreach, hend⟩ := reaches_done (hsame ▸ hp) he' heos' hready'
    exact ⟨u, hstep.trans hreach, hend⟩
termination_by toDo s

/-- Settles O42: stuck is `engineEnabled_eq_false_iff`, moving is `engineStep_of_enabled`, ending is `reaches_done`. -/
theorem stuckInExactlyTwoSituations : Obligations.StuckInExactlyTwoSituations := by
  intro s hbusy
  refine ⟨engineEnabled_eq_false_iff hbusy, engineStep_of_disabled hbusy, fun hen hsame => ?_, engineEnabled_gen,
    fun hp he heos hready => ?_⟩
  · obtain ⟨t, ht, hne⟩ := engineStep_of_enabled hen
    exact hne (Host.Outcome.next.inj (ht.symm.trans hsame))
  · obtain ⟨t, ⟨k, hk⟩, hend⟩ := reaches_done hp he heos hready
    exact ⟨k, t, hk, hend⟩

end Sys2Proof.Machine
